-- ==== Sys2Proof/Word.lean ====
section
/-! DEFINITION. The word of the machine (00_scope.md R9, R10) and the console byte (80_host_interface.md R231).
Addition of words is `BitVec` addition, which wraps modulo 2^16 as R9 and R125 ask. -/
namespace Sys2Proof

/-- A Word: 16 bits, bit 15 the most significant (R9, R10). Registers, memory cells, addresses and instructions are Words. -/
abbrev Word := BitVec 16

/-- A console byte, 0..255 (R231, R234). -/
abbrev Byte := BitVec 8

/-- The number of a general register, 0..7: what a 3-bit selector field names (R21, R81). -/
abbrev RegId := Fin 8

end Sys2Proof
end

