-- ==== Sys2Proof/Syntax.lean ====
section
/-! DEFINITION. The instructions: one constructor for each of the 25 rows of spec/opcode_table.json, holding the operand
fields of 30_encoding.md R81 and R82. Bits that R87 calls unused are not operands and are not kept, except for RTI and
RES, whose fault records the whole word (R181). -/
namespace Sys2Proof

/-- The sixteen opcode names (R83). Their numbers are the table `opmap` of Decode.lean. -/
inductive Opcode where
  | br | add | ld | st | jsr | and | ldr | str | rti | not | ldi | sti | jmp | res | lea | trap
  deriving DecidableEq, Repr

/-- The six services of TRAP (R89). Their vectors are the table `trapMap` of Decode.lean. -/
inductive Service where
  | getc | out | puts | inEcho | putsp | halt
  deriving DecidableEq, Repr

/-- An instruction. -/
inductive Instr where
  /-- BR (R130): condition bits n, z, p; PCoffset9. -/
  | br (n z p : Bool) (off9 : BitVec 9)
  /-- ADD, register form (R120). -/
  | addReg (dr sr1 sr2 : RegId)
  /-- ADD, immediate form (R121). -/
  | addImm (dr sr1 : RegId) (imm5 : BitVec 5)
  /-- LD (R140). -/
  | ld (dr : RegId) (off9 : BitVec 9)
  /-- ST (R144). -/
  | st (sr : RegId) (off9 : BitVec 9)
  /-- JSR (R132). -/
  | jsr (off11 : BitVec 11)
  /-- JSRR (R133). -/
  | jsrr (base : RegId)
  /-- AND, register form (R122). -/
  | andReg (dr sr1 sr2 : RegId)
  /-- AND, immediate form (R123). -/
  | andImm (dr sr1 : RegId) (imm5 : BitVec 5)
  /-- LDR (R142). -/
  | ldr (dr base : RegId) (off6 : BitVec 6)
  /-- STR (R146). -/
  | str (sr base : RegId) (off6 : BitVec 6)
  /-- RTI (R168), unassigned; `low` is bits 11:0 of the word, which the fault records. -/
  | rti (low : BitVec 12)
  /-- NOT (R124). -/
  | notReg (dr sr1 : RegId)
  /-- LDI (R141). -/
  | ldi (dr : RegId) (off9 : BitVec 9)
  /-- STI (R145). -/
  | sti (sr : RegId) (off9 : BitVec 9)
  /-- JMP (R131); RET is JMP with BaseR = 7. -/
  | jmp (base : RegId)
  /-- RES (R169), unassigned; `low` is bits 11:0 of the word, which the fault records. -/
  | res (low : BitVec 12)
  /-- LEA (R143). -/
  | lea (dr : RegId) (off9 : BitVec 9)
  /-- TRAP GETC (R161). -/
  | trapGetc
  /-- TRAP OUT (R162). -/
  | trapOut
  /-- TRAP PUTS (R163). -/
  | trapPuts
  /-- TRAP IN (R164). -/
  | trapIn
  /-- TRAP PUTSP (R165). -/
  | trapPutsp
  /-- TRAP HALT (R166). -/
  | trapHalt
  /-- TRAP with a vector that is none of the six (R167). -/
  | trapUnassigned (vect : Byte)
  deriving DecidableEq, Repr

end Sys2Proof
end

