-- ==== Sys2Proof/WellFormed.lean ====
section
/-! DEFINITION. Which terms of `Instr` some word encodes. The types of the fields bound every operand (3-bit register
numbers, 5, 6, 9, 11 and 12-bit fields); one check is left, the vector of a TRAP that selects no service. -/
namespace Sys2Proof

/-- The check of 30_encoding.md R89: 0x20..0x25 are assigned, every other vector is not. -/
def vectorUnassigned (v : Byte) : Bool :=
  v.toNat < 0x20 || 0x25 < v.toNat

/-- `i` is the decoding of some word. -/
def Instr.wellFormed (i : Instr) : Bool :=
  match i with
  | .trapUnassigned vect => vectorUnassigned vect
  | .br _ _ _ _ | .addReg _ _ _ | .addImm _ _ _ | .ld _ _ | .st _ _ | .jsr _ | .jsrr _ | .andReg _ _ _ | .andImm _ _ _
  | .ldr _ _ _ | .str _ _ _ | .rti _ | .notReg _ _ | .ldi _ _ | .sti _ _ | .jmp _ | .res _ | .lea _ _
  | .trapGetc | .trapOut | .trapPuts | .trapIn | .trapPutsp | .trapHalt => true

end Sys2Proof
end

