-- ==== Sys2Proof/Decode.lean ====
section
/-! DEFINITION. The decoder, total on words (30_encoding.md R86: "Decoding is total and cannot fail", so no word is
rejected here; RTI, RES and unassigned vectors fault when dispatched), and the encoder written from the same tables. -/
namespace Sys2Proof

/-- `OPMAP`, the table of R83: entry `k` is the opcode that `ir[15:12] = k` selects. PRESUMED, log entry 1. -/
def opmap : Vector Opcode 16 :=
  #v[.br, .add, .ld, .st, .jsr, .and, .ldr, .str, .rti, .not, .ldi, .sti, .jmp, .res, .lea, .trap]

/-- The opcode that a value of `ir[15:12]` selects (R83). -/
def opcodeAt (k : BitVec 4) : Opcode :=
  opmap[k.toFin]

/-- The opcode of a word, by its bits 15:12 (R80). -/
def opcodeOf (w : Word) : Opcode :=
  opcodeAt (w.extractLsb' 12 4)

/-- The number of an opcode: its place in `opmap`. -/
def Opcode.code (o : Opcode) : BitVec 4 :=
  BitVec.ofNat 4 (opmap.toList.idxOf o)

/-- `TRAPMAP`, the table of R89. PRESUMED, log entry 2. -/
def trapMap : List (Byte × Service) :=
  [(0x20, .getc), (0x21, .out), (0x22, .puts), (0x23, .inEcho), (0x24, .putsp), (0x25, .halt)]

/-- The service a vector selects, or none (R89). -/
def serviceOf (v : Byte) : Option Service :=
  (trapMap.find? (fun row => row.1 == v)).map (·.2)

/-- The vector of a service: the `TRAPMAP` row that names it. -/
def Service.vector (x : Service) : Byte :=
  ((trapMap.find? (fun row => row.2 == x)).map (·.1)).getD 0

/-- The 3-bit register selector whose lowest bit is bit `lo` (R81). -/
def regField (w : Word) (lo : Nat) : RegId :=
  (w.extractLsb' lo 3).toFin

/-- DR of R81, bits 11:9; also SR of the stores. -/
def fieldDR (w : Word) : RegId := regField w 9
/-- SR1 of R81, bits 8:6; also BaseR. -/
def fieldSR1 (w : Word) : RegId := regField w 6
/-- SR2 of R81, bits 2:0. -/
def fieldSR2 (w : Word) : RegId := regField w 0
/-- imm5 of R84, bits 4:0. -/
def fieldImm5 (w : Word) : BitVec 5 := w.extractLsb' 0 5
/-- offset6 of R84, bits 5:0. -/
def fieldOff6 (w : Word) : BitVec 6 := w.extractLsb' 0 6
/-- PCoffset9 of R84, bits 8:0. -/
def fieldOff9 (w : Word) : BitVec 9 := w.extractLsb' 0 9
/-- PCoffset11 of R84, bits 10:0. -/
def fieldOff11 (w : Word) : BitVec 11 := w.extractLsb' 0 11
/-- trapvect8 of R84, bits 7:0. -/
def fieldVect (w : Word) : Byte := w.extractLsb' 0 8
/-- Bits 11:0, which no field of RTI and RES uses. -/
def fieldLow (w : Word) : BitVec 12 := w.extractLsb' 0 12

/-- TRAP's sub-dispatch on bits 7:0 (R89, R112). -/
def decodeTrap (v : Byte) : Instr :=
  match serviceOf v with
  | some .getc => .trapGetc
  | some .out => .trapOut
  | some .puts => .trapPuts
  | some .inEcho => .trapIn
  | some .putsp => .trapPutsp
  | some .halt => .trapHalt
  | none => .trapUnassigned v

/-- The decoder (R86, R112): opcode by bits 15:12, mode bit 5 of ADD and AND and mode bit 11 of JSR/JSRR (R85), unused
bits ignored (R87). -/
def decode (w : Word) : Instr :=
  match opcodeOf w with
  | .br => .br (w.getLsbD 11) (w.getLsbD 10) (w.getLsbD 9) (fieldOff9 w)
  | .add =>
    if w.getLsbD 5 then .addImm (fieldDR w) (fieldSR1 w) (fieldImm5 w)
    else .addReg (fieldDR w) (fieldSR1 w) (fieldSR2 w)
  | .ld => .ld (fieldDR w) (fieldOff9 w)
  | .st => .st (fieldDR w) (fieldOff9 w)
  | .jsr => if w.getLsbD 11 then .jsr (fieldOff11 w) else .jsrr (fieldSR1 w)
  | .and =>
    if w.getLsbD 5 then .andImm (fieldDR w) (fieldSR1 w) (fieldImm5 w)
    else .andReg (fieldDR w) (fieldSR1 w) (fieldSR2 w)
  | .ldr => .ldr (fieldDR w) (fieldSR1 w) (fieldOff6 w)
  | .str => .str (fieldDR w) (fieldSR1 w) (fieldOff6 w)
  | .rti => .rti (fieldLow w)
  | .not => .notReg (fieldDR w) (fieldSR1 w)
  | .ldi => .ldi (fieldDR w) (fieldOff9 w)
  | .sti => .sti (fieldDR w) (fieldOff9 w)
  | .jmp => .jmp (fieldSR1 w)
  | .res => .res (fieldLow w)
  | .lea => .lea (fieldDR w) (fieldOff9 w)
  | .trap => decodeTrap (fieldVect w)

/-- The three bits of a register selector. -/
def regBits (r : RegId) : BitVec 3 := BitVec.ofFin r

/-- The three condition bits of BR in their place order: n is bit 11, z bit 10, p bit 9 (R88). PRESUMED, log entry 3. -/
def condBits (n z p : Bool) : BitVec 3 :=
  BitVec.ofBool n ++ BitVec.ofBool z ++ BitVec.ofBool p

/-! The formats of R82, bit 15 on the left. Unused bits are written 0, but for NOT's bits 5:0, written 111111 as R87 says
an assembler does. -/

/-- OPR: opcode, DR, SR1, mode bit 0, two unused bits, SR2. -/
def formatOPR (o : Opcode) (dr sr1 sr2 : RegId) : Word :=
  o.code ++ regBits dr ++ regBits sr1 ++ 0b0#1 ++ 0b00#2 ++ regBits sr2
/-- OPI: opcode, DR, SR1, mode bit 1, imm5. -/
def formatOPI (o : Opcode) (dr sr1 : RegId) (imm5 : BitVec 5) : Word :=
  o.code ++ regBits dr ++ regBits sr1 ++ 0b1#1 ++ imm5
/-- UNA: opcode, DR, SR1, six unused bits. -/
def formatUNA (o : Opcode) (dr sr1 : RegId) : Word :=
  o.code ++ regBits dr ++ regBits sr1 ++ 0b111111#6
/-- BRF: opcode, n, z, p, PCoffset9. -/
def formatBRF (o : Opcode) (n z p : Bool) (off9 : BitVec 9) : Word :=
  o.code ++ condBits n z p ++ off9
/-- JMPF: opcode, three unused bits, BaseR, six unused bits. -/
def formatJMPF (o : Opcode) (base : RegId) : Word :=
  o.code ++ 0b000#3 ++ regBits base ++ 0b000000#6
/-- JSRF: opcode, bit 11 = 1, PCoffset11. -/
def formatJSRF (o : Opcode) (off11 : BitVec 11) : Word :=
  o.code ++ 0b1#1 ++ off11
/-- JSRRF: opcode, bit 11 = 0, two unused bits, BaseR, six unused bits. -/
def formatJSRRF (o : Opcode) (base : RegId) : Word :=
  o.code ++ 0b0#1 ++ 0b00#2 ++ regBits base ++ 0b000000#6
/-- PC9: opcode, DR or SR, PCoffset9. -/
def formatPC9 (o : Opcode) (r : RegId) (off9 : BitVec 9) : Word :=
  o.code ++ regBits r ++ off9
/-- BO6: opcode, DR or SR, BaseR, offset6. -/
def formatBO6 (o : Opcode) (r base : RegId) (off6 : BitVec 6) : Word :=
  o.code ++ regBits r ++ regBits base ++ off6
/-- TRP: opcode, four unused bits, trapvect8. -/
def formatTRP (o : Opcode) (vect : Byte) : Word :=
  o.code ++ 0b0000#4 ++ vect
/-- NONE: opcode, twelve bits that no field uses. -/
def formatNONE (o : Opcode) (low : BitVec 12) : Word :=
  o.code ++ low

/-- The encoder: each instruction in the format R82 gives it. -/
def encode (i : Instr) : Word :=
  match i with
  | .br n z p off9 => formatBRF .br n z p off9
  | .addReg dr sr1 sr2 => formatOPR .add dr sr1 sr2
  | .addImm dr sr1 imm5 => formatOPI .add dr sr1 imm5
  | .ld dr off9 => formatPC9 .ld dr off9
  | .st sr off9 => formatPC9 .st sr off9
  | .jsr off11 => formatJSRF .jsr off11
  | .jsrr base => formatJSRRF .jsr base
  | .andReg dr sr1 sr2 => formatOPR .and dr sr1 sr2
  | .andImm dr sr1 imm5 => formatOPI .and dr sr1 imm5
  | .ldr dr base off6 => formatBO6 .ldr dr base off6
  | .str sr base off6 => formatBO6 .str sr base off6
  | .rti low => formatNONE .rti low
  | .notReg dr sr1 => formatUNA .not dr sr1
  | .ldi dr off9 => formatPC9 .ldi dr off9
  | .sti sr off9 => formatPC9 .sti sr off9
  | .jmp base => formatJMPF .jmp base
  | .res low => formatNONE .res low
  | .lea dr off9 => formatPC9 .lea dr off9
  | .trapGetc => formatTRP .trap Service.getc.vector
  | .trapOut => formatTRP .trap Service.out.vector
  | .trapPuts => formatTRP .trap Service.puts.vector
  | .trapIn => formatTRP .trap Service.inEcho.vector
  | .trapPutsp => formatTRP .trap Service.putsp.vector
  | .trapHalt => formatTRP .trap Service.halt.vector
  | .trapUnassigned vect => formatTRP .trap vect

/-- The bits of an instruction's word that mean something: all but those R87 lists as unused. -/
def Instr.usedMask (i : Instr) : Word :=
  match i with
  | .addReg _ _ _ | .andReg _ _ _ => 0xFFE7
  | .notReg _ _ => 0xFFC0
  | .jmp _ => 0xF1C0
  | .jsrr _ => 0xF9C0
  | .trapGetc | .trapOut | .trapPuts | .trapIn | .trapPutsp | .trapHalt | .trapUnassigned _ => 0xF0FF
  | .br _ _ _ _ | .addImm _ _ _ | .ld _ _ | .st _ _ | .jsr _ | .andImm _ _ _ | .ldr _ _ _ | .str _ _ _ | .rti _
  | .ldi _ _ | .sti _ _ | .res _ | .lea _ _ => 0xFFFF

/-- The word of an opcode-table row: `w` below `nbits` bits, every bit above them 0 (spec/opcode_table.json's numbering). -/
def tableWord (nbits w : Nat) : Word :=
  BitVec.ofNat 16 (w % 2 ^ nbits)

/-- What the decoder reads from the instruction whose bits are `w`. An instruction is one word (R80): more than 16 bits
are no instruction of this machine. -/
def decodeTableWord (nbits w : Nat) : Option Instr :=
  if nbits ≤ 16 then some (decode (tableWord nbits w)) else none

end Sys2Proof
end

