-- ==== Sys2Proof/Machine/Bits.lean ====
section
/-! DEFINITION. The bit-field helpers of 00_scope.md R10, R11 and R12. -/
namespace Sys2Proof.Machine

/-- `sext_b(f)` (R11): copies of the high bit of the field fill the high bits of the word. -/
def sext {b : Nat} (f : BitVec b) : Word := f.signExtend 16

/-- `zext_16(c)` (R12): the byte in bits 7:0, bits 15:8 clear. -/
def zext16 (c : Byte) : Word := c.setWidth 16

/-- The low byte `w[7:0]` (R10). -/
def lowByte (w : Word) : Byte := w.extractLsb' 0 8

/-- The high byte `w[15:8]` (R10). -/
def highByte (w : Word) : Byte := w.extractLsb' 8 8

end Sys2Proof.Machine
end

