-- ==== Sys2Proof/Config.lean ====
section
/-! DEFINITION. The parameters of 00_scope.md R8 that the spec leaves OPEN and that no step changes. None has a body a
proof could use: a claim about them holds for every value they may take. The parameters `GPR_RESET`, `MEM_INIT` and
`CONSOLE_IN` are arguments of `State.boot` (Machine/State.lean); the decided ones, `OPMAP`, `TRAPMAP` and `CCMAP`, are
tables in Decode.lean and Machine/Flags.lean. -/
namespace Sys2Proof.Config

/-- `IN_PROMPT` (R8, R164): the text the IN service writes before it reads. OPEN (D14). Log entry 6. -/
opaque inPrompt : List Byte

/-- `HALT_MSG` (R8, R166): the text the HALT service writes. OPEN (D14). Log entry 6. -/
opaque haltMsg : List Byte

/-- FREE VALUE (R232, D23): whether poll number `k` finds that a pending byte has arrived. `State.polls` counts the polls.
`POLL_FAIR` is not assumed. Log entry 5. -/
opaque pollArrived : Nat → Bool

end Sys2Proof.Config
end

