-- ==== Sys2Proof/Machine/State.lean ====
section
/-! DEFINITION. The state of the machine, 10_state.md R20, as plain data, and its value after reset (R35 to R40, R210). -/
namespace Sys2Proof.Machine

/-- One word of memory at an address. The unit is the Word: R50 gives the machine no byte address. Log entry 7. -/
abbrev Cell := Nat × Word

/-- Memory (R32): the listed words; an unlisted address reads as `Memory.unlisted` (Machine/Ops.lean). Canonical form:
addresses strictly rising, no entry equal to what an unlisted address reads as (`Memory.wf`). -/
abbrev Memory := List Cell

/-- The Running State (R30). -/
inductive RunState where
  | running
  | halted
  deriving DecidableEq, Repr

/-- A fault record, cause and info (R31, the table of R180). -/
inductive FaultRecord where
  /-- `IllegalOpcode(ir)`: raised by RTI and RES with the instruction word (R181). -/
  | illegalOpcode (ir : Word)
  /-- `BadTrapVector(v)`: raised by TRAP with an unassigned vector (R182). -/
  | badTrapVector (vect : Byte)
  /-- `ConsoleInputClosed`: raised by GETC and IN at the end of a closed input (R183). -/
  | consoleInputClosed
  deriving DecidableEq, Repr

/-- `cin` (R231): the bytes not yet consumed, in delivery order, and whether the source closes after the last. -/
structure ConsoleIn where
  bytes  : List Byte
  closes : Bool
  deriving DecidableEq, Repr

/-- The answer of `ConsoleGet()` (R233): a byte and what is left, the closed stream, or no return at all. -/
inductive GetAnswer where
  | byte (c : Byte) (rest : ConsoleIn)
  | closed
  | waits
  deriving DecidableEq, Repr

/-- The instructions that can wait for input: GETC and IN (R114, R161, R164). -/
inductive Wait where
  | getc
  | inEcho
  deriving DecidableEq, Repr

/-- The whole state (R20). -/
structure State where
  /-- R0..R7 (R21). -/
  regs  : Vector Word 8
  /-- PC (R23). -/
  pc    : Word
  /-- COND (R25). -/
  cond  : Word
  /-- Memory, the device slots KBSR and KBDR among its words (R32, R33). -/
  mem   : Memory
  /-- The Running State (R30). -/
  run   : RunState
  /-- The fault record (R31). -/
  fault : Option FaultRecord
  /-- The console input not yet consumed (R34, R231). -/
  cin   : ConsoleIn
  /-- The output log, oldest byte first (R34, R234). -/
  cout  : List Byte
  /-- THE MODEL'S OWN, not the spec's: how many keyboard polls have been made. It numbers the free draws of R232
  (`Config.pollArrived`). Log entry 5. -/
  polls : Nat
  /-- THE MODEL'S OWN, not the spec's: the GETC or IN in progress that waits for a byte, its effects before the wait done
  (R195, R233); `none` at every instruction boundary. Log entry 9. -/
  wait  : Option Wait
  deriving DecidableEq, Repr

/-- Why the machine has no next state. -/
inductive Fault where
  /-- Raised by `step` when `run = Halted`: a normal end, the machine has no step (R110, R116 (a)). Safe. -/
  | halted
  /-- Raised by `step` when `fault` is not `none`: an aborted machine has no step (R110, R116 (b)). Safe. -/
  | aborted (r : FaultRecord)
  /-- Raised by `step` when a GETC or IN in progress waits on an input that is empty and open: the blocking read does not
  return and the machine is held (R233, R116 (c); I5 of 93_implementation_defined.md). Safe. Log entry 9. -/
  | heldForInput
  /-- Answered by PUTS and PUTSP for a walk that never ends (R163, R165; I6 of 93_implementation_defined.md). Safe.
  `Laws/Walk.lean` proves that no state leads here: every lap of the walk reads 0xFE00. Log entry 10. -/
  | stringWithoutEnd
  deriving DecidableEq, Repr

/-- Why an instruction has no meaning. -/
inductive Refusal where
  /-- Raised by an arm of `exec` for an instruction with no meaning yet. No arm answers it now. Safe. -/
  | notModelled (mnemonic : String)
  deriving DecidableEq, Repr

/-- The arguments R8 gives the model for the machine leaving reset: `GPR_RESET`, `MEM_INIT`, `CONSOLE_IN`. -/
structure BootParams where
  gprReset  : Vector Word 8
  memInit   : Memory
  consoleIn : ConsoleIn
  deriving DecidableEq, Repr

/-- The state in which the core leaves reset, for any value of the open parameters (R210). -/
def State.boot (p : BootParams) : State where
  regs  := p.gprReset
  pc    := 0x3000
  cond  := 0x0002
  mem   := p.memInit
  run   := .running
  fault := none
  cin   := p.consoleIn
  cout  := []
  polls := 0
  wait  := none

/-- The parameters of the one reset state the host names: registers 0 (log entry 4), memory with nothing listed
(log entry 8), no input and a closed source (log entry 11). DESIGN CHOICE each: the spec leaves the three open. -/
def BootParams.plain : BootParams where
  gprReset  := #v[0, 0, 0, 0, 0, 0, 0, 0]
  memInit   := []
  consoleIn := { bytes := [], closes := true }

/-- The machine right after reset (R210), with nothing loaded. -/
def State.reset : State := State.boot BootParams.plain

end Sys2Proof.Machine
end

