-- ==== Sys2Proof/Machine/Ops.lean ====
section
/-! DEFINITION. The named operations over registers, memory and console (the primitives table of 00_scope.md), and the
two ways an instruction leaves the ordinary path: `raise` (60_exceptions.md R180) and the entry of TRAP (R160). -/
namespace Sys2Proof.Machine

/-! ### Registers -/

/-- `x[i]` (R21). No register is hardwired. -/
def State.getReg (s : State) (r : RegId) : Word := s.regs[r]

/-- `x[i] <- v` (R21). -/
def State.setReg (s : State) (r : RegId) (v : Word) : State := { s with regs := s.regs.set r v }

/-- `pc <- t` (R23). -/
def State.setPc (s : State) (t : Word) : State := { s with pc := t }

/-- `cond <- v` (R25). -/
def State.setCond (s : State) (v : Word) : State := { s with cond := v }

/-- `run <- Halted` (R30). -/
def State.halt (s : State) : State := { s with run := .halted }

/-! ### The memory array -/

/-- What an address that the list does not name reads as. DESIGN CHOICE, log entry 8. -/
def Memory.unlisted : Word := 0x0000

/-- The content of the array at an address: its first entry, or `Memory.unlisted`. -/
def Memory.read (m : Memory) (a : Nat) : Word :=
  match m with
  | [] => Memory.unlisted
  | (k, w) :: rest => if k = a then w else Memory.read rest a

/-- Remove what the list says of an address. -/
def Memory.erase (m : Memory) (a : Nat) : Memory := m.filter (fun c => c.1 ≠ a)

/-- Put an entry in its place by address, over an entry of the same address. -/
def Memory.insert (m : Memory) (a : Nat) (v : Word) : Memory :=
  match m with
  | [] => [(a, v)]
  | (k, w) :: rest =>
    if a < k then (a, v) :: (k, w) :: rest
    else if k = a then (a, v) :: rest
    else (k, w) :: Memory.insert rest a v

/-- Write one word, keeping the canonical form: the value an unlisted address reads as removes the entry. -/
def Memory.write (m : Memory) (a : Nat) (v : Word) : Memory :=
  if v = Memory.unlisted then Memory.erase m a else Memory.insert m a v

/-- The canonical form: addresses strictly rising and below 65,536 (R50), no entry equal to what an unlisted address
reads as. -/
def Memory.wf (m : Memory) : Bool :=
  decide (m.Pairwise (fun c d => c.1 < d.1) ∧ ∀ c ∈ m, c.1 < 65536 ∧ c.2 ≠ Memory.unlisted)

/-- `mem[a]`: the raw content at an address, no side effect (R32). -/
def State.peek (s : State) (a : Word) : Word := Memory.read s.mem a.toNat

/-- `mem[a] <- v`. -/
def State.poke (s : State) (a v : Word) : State := { s with mem := Memory.write s.mem a.toNat v }

/-! ### The console -/

/-- `ConsolePoll()` (R232). `arrived` is the free draw, which counts only when a byte is pending. The answer is `none`
for `NotReady` and `some c` for `Ready(c)`, with the input that is left. -/
def consolePoll (arrived : Bool) (cin : ConsoleIn) : Option Byte × ConsoleIn :=
  match cin.bytes with
  | [] => (none, cin)
  | c :: rest => if arrived then (some c, { cin with bytes := rest }) else (none, cin)

/-- `ConsoleGet()` (R233). -/
def consoleGet (cin : ConsoleIn) : GetAnswer :=
  match cin.bytes with
  | c :: rest => .byte c { cin with bytes := rest }
  | [] => if cin.closes then .closed else .waits

/-- The console input becomes `cin`. -/
def State.setCin (s : State) (cin : ConsoleIn) : State := { s with cin := cin }

/-- A GETC or IN is in progress and waits for a byte, or none is any more. Log entry 9. -/
def State.setWait (s : State) (w : Option Wait) : State := { s with wait := w }

/-- A delivery of the host to an open input: bytes after those pending, and whether the source closes (R195, and R233's
"a hold that a host delivery lifts"). An action of the host: no step makes it. Log entry 9. -/
def State.deliver (s : State) (bytes : List Byte) (closes : Bool) : State :=
  if s.cin.closes then s else s.setCin { bytes := s.cin.bytes ++ bytes, closes }

/-- `ConsoleOut(b)` for each byte of a list in order: the log grows by the list (R234). -/
def State.out (s : State) (bytes : List Byte) : State := { s with cout := s.cout ++ bytes }

/-- `ConsoleOut(c)` (R234). -/
def State.outByte (s : State) (c : Byte) : State := s.out [c]

/-- `ConsoleFlush()` (R235, D19): no effect on `cout` or on any state. -/
def State.flush (s : State) : State := s

/-! ### Memory as instructions reach it -/

/-- KBSR, the keyboard status register (R51). -/
def kbsr : Word := 0xFE00

/-- KBDR, the keyboard data register (R51). -/
def kbdr : Word := 0xFE02

/-- `KbdPoll()`: ready (R54) or not ready (R55). `arrived` is the free draw of R232. -/
def kbdPoll (arrived : Bool) (s : State) : State :=
  let s := { s with polls := s.polls + 1 }
  match consolePoll arrived s.cin with
  | (some c, cin) => ((s.setCin cin).poke kbsr 0x8000).poke kbdr (zext16 c)
  | (none, _) => s.poke kbsr 0x0000

/-- `MemRead(a)` (R53), the only way the core reads memory: a read of KBSR polls first. The word read and the state
after the read. -/
def memRead (a : Word) (s : State) : Word × State :=
  let s := if a = kbsr then kbdPoll (Config.pollArrived s.polls) s else s
  (s.peek a, s)

/-- `MemWrite(a, v)` (R56), the only way the core writes memory: a plain write at every address, the device slots among
them (R57). -/
def memWrite (a v : Word) (s : State) : State := s.poke a v

/-- The fetch (R111): `ir <- MemRead(pc); pc <- pc + 1`. -/
def fetch (s : State) : Word × State :=
  let r := memRead s.pc s
  (r.1, r.2.setPc (r.2.pc + 1))

/-! ### Leaving the ordinary path -/

/-- `raise <Cause>(info)` (R180, R187): the fault record is set and nothing else changes: no save, no mode, no handler,
no transfer of control. There is no return from a fault (R189); RTI is not one (R168). -/
def raise (r : FaultRecord) (s : State) : State := { s with fault := some r }

/-- The entry common to every TRAP (R160, R188): the incremented PC goes to R7, nothing else changes. There is no return
instruction: the service ends by itself and the next fetch is at the unchanged PC (R189). -/
def trapEntry (s : State) : State := s.setReg 7 s.pc

end Sys2Proof.Machine
end

