-- ==== Sys2Proof/Machine/Flags.lean ====
section
/-! DEFINITION. The condition flags: `CCMAP` (10_state.md R25; PRESUMED, log entry 3), `setcc` (R27), the write of a
destination register with its flags (R28), and BR's test (30_encoding.md R88). -/
namespace Sys2Proof.Machine

/-- COND with P alone: bit 0 (R25). -/
def condP : Word := 0x0001

/-- COND with Z alone: bit 1 (R25). -/
def condZ : Word := 0x0002

/-- COND with N alone: bit 2 (R25). -/
def condN : Word := 0x0004

/-- The COND that a result sets (R27): Z if zero, N if bit 15 is set, P otherwise. -/
def condOf (v : Word) : Word := if v = 0 then condZ else if v.getLsbD 15 then condN else condP

/-- `setcc(v)` (R27): the whole of COND is replaced. -/
def setcc (v : Word) (s : State) : State := s.setCond (condOf v)

/-- `x[DR] <- v; setcc(v)`: the write of a destination register and, last, the flags (R28, R115). -/
def writeDest (dr : RegId) (v : Word) (s : State) : State := setcc v (s.setReg dr v)

/-- BR's test `(cond[2:0] & ir[11:9]) ≠ 0` (R88, R130). -/
def branchTaken (n z p : Bool) (cond : Word) : Bool := cond.extractLsb' 0 3 &&& condBits n z p != 0

end Sys2Proof.Machine
end

