-- ==== Sys2Proof/Machine/Operands.lean ====
section
/-! DEFINITION. The operand forms: the second operand of ADD and AND (30_encoding.md R84, R85) and the addressing modes of
43_load_store.md R147. The PC of every PC-relative form is the incremented PC (40_cycle.md R113). Indirect addressing is
`memRead` at a PC-relative address. -/
namespace Sys2Proof.Machine

/-- The immediate operand `sext_5(imm5)` (R84). -/
def immOperand (imm5 : BitVec 5) : Word := sext imm5

/-- The PC-relative address or target `pc + sext_b(offset)`, modulo 2^16 (R84, R147). -/
def pcRelative {b : Nat} (off : BitVec b) (s : State) : Word := s.pc + sext off

/-- The base plus offset address `x[BaseR] + sext_6(offset6)`, modulo 2^16 (R84, R147). -/
def baseOffset (base : RegId) (off6 : BitVec 6) (s : State) : Word := s.getReg base + sext off6

end Sys2Proof.Machine
end

