-- ==== Sys2Proof/Machine/Control.lean ====
section
/-! DEFINITION. The control transfers of 42_control.md: BR, JMP, JSR, JSRR. `s.pc` is the incremented PC. -/
namespace Sys2Proof.Machine

/-- BR (R130). -/
def execBr (n z p : Bool) (off9 : BitVec 9) (s : State) : Host.Outcome State Fault Refusal :=
  .next (if branchTaken n z p s.cond then s.setPc (pcRelative off9 s) else s)

/-- JMP (R131). -/
def execJmp (base : RegId) (s : State) : Host.Outcome State Fault Refusal :=
  .next (s.setPc (s.getReg base))

/-- JSR (R132): R7 takes the incremented PC, then PC the target formed from that same PC. -/
def execJsr (off11 : BitVec 11) (s : State) : Host.Outcome State Fault Refusal :=
  let linked := s.setReg 7 s.pc
  .next (linked.setPc (pcRelative off11 linked))

/-- JSRR (R133): R7 is written first and BaseR is read after (D11). -/
def execJsrr (base : RegId) (s : State) : Host.Outcome State Fault Refusal :=
  let linked := s.setReg 7 s.pc
  .next (linked.setPc (linked.getReg base))

end Sys2Proof.Machine
end

