-- ==== Sys2Proof/Machine/LoadStore.lean ====
section
/-! DEFINITION. The loads and stores of 43_load_store.md. The effective address is formed before any read; reads are in
the order of 20_memory.md R61 and go through `memRead`. -/
namespace Sys2Proof.Machine

/-- The load of a word at an address into DR, with its flags (R140, R142). -/
def loadFrom (dr : RegId) (a : Word) (s : State) : State :=
  let r := memRead a s
  writeDest dr r.1 r.2

/-- LD (R140). -/
def execLd (dr : RegId) (off9 : BitVec 9) (s : State) : Host.Outcome State Fault Refusal :=
  .next (loadFrom dr (pcRelative off9 s) s)

/-- LDI (R141): the pointer is read first, then the word it points at. -/
def execLdi (dr : RegId) (off9 : BitVec 9) (s : State) : Host.Outcome State Fault Refusal :=
  let p := memRead (pcRelative off9 s) s
  .next (loadFrom dr p.1 p.2)

/-- LDR (R142). -/
def execLdr (dr base : RegId) (off6 : BitVec 6) (s : State) : Host.Outcome State Fault Refusal :=
  .next (loadFrom dr (baseOffset base off6 s) s)

/-- LEA (R143): no memory access; the flags are set from the address. -/
def execLea (dr : RegId) (off9 : BitVec 9) (s : State) : Host.Outcome State Fault Refusal :=
  .next (writeDest dr (pcRelative off9 s) s)

/-- ST (R144). -/
def execSt (sr : RegId) (off9 : BitVec 9) (s : State) : Host.Outcome State Fault Refusal :=
  .next (memWrite (pcRelative off9 s) (s.getReg sr) s)

/-- STI (R145): one read for the pointer, then the write. -/
def execSti (sr : RegId) (off9 : BitVec 9) (s : State) : Host.Outcome State Fault Refusal :=
  let p := memRead (pcRelative off9 s) s
  .next (memWrite p.1 (p.2.getReg sr) p.2)

/-- STR (R146). -/
def execStr (sr base : RegId) (off6 : BitVec 6) (s : State) : Host.Outcome State Fault Refusal :=
  .next (memWrite (baseOffset base off6 s) (s.getReg sr) s)

end Sys2Proof.Machine
end

