-- ==== Sys2Proof/Machine/Operate.lean ====
section
/-! DEFINITION. The operate instructions of 41_operate.md: ADD, AND, NOT. Each acts on the state after the fetch. -/
namespace Sys2Proof.Machine

/-- ADD, register form (R120). -/
def execAddReg (dr sr1 sr2 : RegId) (s : State) : Host.Outcome State Fault Refusal :=
  .next (writeDest dr (s.getReg sr1 + s.getReg sr2) s)

/-- ADD, immediate form (R121). -/
def execAddImm (dr sr1 : RegId) (imm5 : BitVec 5) (s : State) : Host.Outcome State Fault Refusal :=
  .next (writeDest dr (s.getReg sr1 + immOperand imm5) s)

/-- AND, register form (R122). -/
def execAndReg (dr sr1 sr2 : RegId) (s : State) : Host.Outcome State Fault Refusal :=
  .next (writeDest dr (s.getReg sr1 &&& s.getReg sr2) s)

/-- AND, immediate form (R123). -/
def execAndImm (dr sr1 : RegId) (imm5 : BitVec 5) (s : State) : Host.Outcome State Fault Refusal :=
  .next (writeDest dr (s.getReg sr1 &&& immOperand imm5) s)

/-- NOT (R124). -/
def execNot (dr sr1 : RegId) (s : State) : Host.Outcome State Fault Refusal :=
  .next (writeDest dr (~~~ s.getReg sr1) s)

end Sys2Proof.Machine
end

