-- ==== Sys2Proof/Machine/Trap.lean ====
section
/-! DEFINITION. TRAP's six services, TRAP with an unassigned vector, and the unassigned opcodes RTI and RES (44_trap.md).
Each TRAP begins with the common entry of R160. -/
namespace Sys2Proof.Machine

/-- What GETC and IN do with the byte they have read: IN echoes it and flushes, both store it in R0 and set the flags
(R161, R164). -/
def Wait.finish (w : Wait) (c : Byte) (s : State) : State :=
  match w with
  | .getc => writeDest 0 (zext16 c) s
  | .inEcho => writeDest 0 (zext16 c) (s.outByte c).flush

/-- `c <- ConsoleGet(); …` of GETC and IN (R161, R164): the byte, the fault `ConsoleInputClosed` at the end of a closed
input (R183), or the wait that an open and empty input begins, with all that the instruction did before it (R233). -/
def awaitByte (w : Wait) (s : State) : State :=
  match consoleGet s.cin with
  | .byte c rest => w.finish c (s.setCin rest)
  | .closed => raise .consoleInputClosed s
  | .waits => s.setWait (some w)

/-- A GETC or IN in progress goes on where it waits: held while the input is open and empty, else the wait is over and
the rest of the instruction happens (R195, R233). -/
def resume (w : Wait) (s : State) : Host.Outcome State Fault Refusal :=
  match consoleGet s.cin with
  | .byte _ _ | .closed => .next (awaitByte w (s.setWait none))
  | .waits => .fault .heldForInput

/-- TRAP GETC (R161). -/
def execTrapGetc (s : State) : Host.Outcome State Fault Refusal :=
  .next (awaitByte .getc (trapEntry s))

/-- TRAP OUT (R162). -/
def execTrapOut (s : State) : Host.Outcome State Fault Refusal :=
  let s := trapEntry s
  .next (s.outByte (lowByte (s.getReg 0))).flush

/-- TRAP IN (R164): prompt, flush, read, echo, flush, store, flags. -/
def execTrapIn (s : State) : Host.Outcome State Fault Refusal :=
  .next (awaitByte .inEcho ((trapEntry s).out Config.inPrompt).flush)

/-- The bytes that PUTS writes for a word, and whether the walk goes on (R163): a zero word ends it. -/
def putsWord (w : Word) : List Byte × Bool :=
  if w = 0x0000 then ([], false) else ([lowByte w], true)

/-- The bytes that PUTSP writes for a word, and whether the walk goes on (R165): the first zero byte, low byte before
high, ends it and is not written. -/
def putspWord (w : Word) : List Byte × Bool :=
  if lowByte w = 0 then ([], false)
  else if highByte w = 0 then ([lowByte w], false)
  else ([lowByte w, highByte w], true)

/-- The loop of PUTS and PUTSP (R163, R165) from address `a`: read a word through `memRead`, write what the service
writes for it, go on at `a + 1` modulo 2^16 or stop. `fuel` bounds the words read; `none` when it is used up. -/
def stringWalk (word : Word → List Byte × Bool) (fuel : Nat) (a : Word) (s : State) : Option State :=
  match fuel with
  | 0 => none
  | fuel + 1 =>
    let r := memRead a s
    let w := word r.1
    let s := r.2.out w.1
    if w.2 then stringWalk word fuel (a + 1) s else some s

/-- More words than any walk reads: a lap of memory reads KBSR, and a lap that does not end there consumes an input byte.
`Laws/Walk.lean` proves that this many are enough. Log entry 10. -/
def walkBound (s : State) : Nat := 65536 * (s.cin.bytes.length + 1)

/-- The walk of a service from `x[0]`, then the flush. -/
def putString (word : Word → List Byte × Bool) (s : State) : Host.Outcome State Fault Refusal :=
  match stringWalk word (walkBound s) (s.getReg 0) s with
  | some t => .next t.flush
  | none => .fault .stringWithoutEnd

/-- TRAP PUTS (R163). -/
def execTrapPuts (s : State) : Host.Outcome State Fault Refusal :=
  putString putsWord (trapEntry s)

/-- TRAP PUTSP (R165). -/
def execTrapPutsp (s : State) : Host.Outcome State Fault Refusal :=
  putString putspWord (trapEntry s)

/-- TRAP HALT (R166). -/
def execTrapHalt (s : State) : Host.Outcome State Fault Refusal :=
  .next (((trapEntry s).out Config.haltMsg).flush).halt

/-- TRAP with an unassigned vector (R167): the fault is raised after R7 is written (R182). -/
def execTrapUnassigned (vect : Byte) (s : State) : Host.Outcome State Fault Refusal :=
  .next (raise (.badTrapVector vect) (trapEntry s))

/-- RTI (R168): the fault records the instruction word (R181). -/
def execRti (low : BitVec 12) (s : State) : Host.Outcome State Fault Refusal :=
  .next (raise (.illegalOpcode (encode (.rti low))) s)

/-- RES (R169): the fault records the instruction word (R181). -/
def execRes (low : BitVec 12) (s : State) : Host.Outcome State Fault Refusal :=
  .next (raise (.illegalOpcode (encode (.res low))) s)

end Sys2Proof.Machine
end

