-- ==== Sys2Proof/Machine/Step.lean ====
section
/-! DEFINITION. One step of the machine (40_cycle.md R110 to R117), and where the host puts an instruction to run. -/
namespace Sys2Proof.Machine

/-- The step (R110, R117): none when the machine is aborted or halted; the rest of a GETC or IN in progress, which R114
completes before any further fetch; else fetch, decode and dispatch. -/
def step (s : State) : Host.Outcome State Fault Refusal :=
  match s.fault, s.run, s.wait with
  | some r, _, _ => .fault (.aborted r)
  | none, .halted, _ => .fault .halted
  | none, .running, some w => resume w s
  | none, .running, none => exec (decode (fetch s).1) (fetch s).2

/-- `s`, ready to run the given instruction in its very next step: running, not aborted and not waiting, with the
instruction's word at PC. PC itself moves (to 0x3000) only when it is KBSR, where a fetch reads a poll's answer and no stored word (R63).
A program is loaded from outside the machine (R211); this stands for that load. Log entry 12. -/
def State.withFetchWord (s : State) (nbits w : Nat) : State :=
  let s := { s with run := .running, fault := none, wait := none, pc := if s.pc = kbsr then 0x3000 else s.pc }
  s.poke s.pc (tableWord nbits w)

end Sys2Proof.Machine
end

