-- ==== Sys2Proof/Machine/Loader.lean ====
section
/-! DEFINITION. What the spec records of the loader (70_reset_and_hazards.md R211, 80_host_interface.md R237): the host's
population of memory before the first step. The loader itself is outside the core (R5 (a)); no step uses this file. -/
namespace Sys2Proof.Machine

/-- A Program Image: an origin and its words (R211). -/
structure Image where
  origin : Word
  words  : List Word
  deriving DecidableEq, Repr

/-- The image lies inside memory. What the loader does with one that does not is not stated (R237). -/
def Image.fits (im : Image) : Bool := im.origin.toNat + im.words.length ≤ 65536

/-- Word `k` of the list at address `a + k`. -/
def loadWords (a : Nat) (ws : List Word) (m : Memory) : Memory :=
  match ws with
  | [] => m
  | w :: rest => loadWords (a + 1) rest (Memory.write m a w)

/-- Memory after an image is loaded: word `k` at `origin + k`, every other address as it was (R237). -/
def Image.load (im : Image) (m : Memory) : Memory := loadWords im.origin.toNat im.words m

/-- Big-endian words of a byte list, the first byte of each pair in bits 15:8 (R59, R237); `none` for an odd length. -/
def wordsOfBytes (bs : List Byte) : Option (List Word) :=
  match bs with
  | [] => some []
  | [_] => none
  | hi :: lo :: rest => (wordsOfBytes rest).map (fun ws => (hi ++ lo) :: ws)

/-- The image file (R59, R237): a big-endian origin, then big-endian words; `none` for bytes that are no such file or an
image that does not fit. -/
def imageOfBytes (bs : List Byte) : Option Image :=
  match wordsOfBytes bs with
  | some (origin :: words) =>
    let im : Image := { origin, words }
    if im.fits then some im else none
  | _ => none

end Sys2Proof.Machine
end

