-- ==== Sys2Proof/Safety.lean ====
section
/-! DEFINITION. The terms claims use: how a run ends (40_cycle.md R116), the invariant every step keeps, and what each
instruction may write. -/
namespace Sys2Proof.Machine

/-- A normal end (R116 (a)): TRAP HALT was executed. -/
def State.normalEnd (s : State) : Prop := s.run = .halted ∧ s.fault = none

/-- An abort (R116 (b)): a fault is recorded; never a final state of a successful run. -/
def State.aborted (s : State) : Prop := s.fault ≠ none

/-- A step is possible and fetches: no halt, no fault (R110), and no GETC or IN in progress (R114). -/
def State.canStep (s : State) : Prop := s.run = .running ∧ s.fault = none ∧ s.wait = none

/-- A GETC or IN in progress waits for a byte (R195, R233). Log entry 9. -/
def State.held (s : State) (w : Wait) : Prop := s.run = .running ∧ s.fault = none ∧ s.wait = some w

/-- The invariant of the machine at an instruction boundary: COND holds exactly one flag and zeros elsewhere (R25, R26),
memory is in canonical form, no machine is both halted and aborted (R116), and only a running one has an instruction in
progress (R114). -/
structure State.Inv (s : State) : Prop where
  oneFlag  : s.cond = 0x0001 ∨ s.cond = 0x0002 ∨ s.cond = 0x0004
  memWf    : Memory.wf s.mem
  oneEnd   : s.run = .halted → s.fault = none
  waitRuns : s.wait ≠ none → s.run = .running ∧ s.fault = none

/-- The TRAP that waits. -/
def Wait.instr (w : Wait) : Instr :=
  match w with
  | .getc => .trapGetc
  | .inEcho => .trapIn

/-- The instruction that the step of `s` carries out: the GETC or IN in progress (R114), else the one it fetches and
dispatches (R111, R112). -/
def State.current (s : State) : Instr :=
  match s.wait with
  | some w => w.instr
  | none => decode (fetch s).1

/-- The state that instruction finds: as it stands for one in progress, else after the fetch. -/
def State.entered (s : State) : State :=
  match s.wait with
  | some _ => s
  | none => (fetch s).2

/-- The states of runs from `s`: `s` itself and whatever steps lead to. -/
inductive Reaches (s : State) : State → Prop where
  | here : Reaches s s
  | step {t u : State} : Reaches s t → Machine.step t = .next u → Reaches s u

end Sys2Proof.Machine
end

