-- ==== Sys2Proof/Certificates/Slice0/Obligations.lean ====
section
/-! DEFINITION. The statements for the provers. `exec` acts on the state after the fetch (40_cycle.md R111), so `s.pc` in
a statement about `exec` is the incremented PC (R113); statements about `step` start before the fetch. -/

namespace Sys2Proof.Claims
open Sys2Proof.Machine

/-! ### The vocabulary of the statements, written from the rules and not from the meanings -/

/-- R27: Z for zero, N for a word with bit 15 set, P otherwise, in the places of R25. -/
def flagsOf (v : Word) : Word := if v = 0 then 0x0002 else if 0x8000 ≤ v.toNat then 0x0004 else 0x0001

/-- A word plus a signed field, modulo 2^16 (R9, R11). -/
def plus {b : Nat} (x : Word) (f : BitVec b) : Word := BitVec.ofInt 16 (x.toInt + f.toInt)

/-- The register that a 3-bit field with lowest bit `lo` names (R81). -/
def regAt (w : Word) (lo : Nat) : RegId := (w.extractLsb' lo 3).toFin

/-- `run`, `fault`, `wait`, the input and the output log are the same. -/
def SameControl (s t : State) : Prop :=
  t.run = s.run ∧ t.fault = s.fault ∧ t.wait = s.wait ∧ t.cin = s.cin ∧ t.cout = s.cout

/-- Every word of memory reads the same. -/
def SameMemory (s t : State) : Prop := ∀ a, t.peek a = s.peek a

/-- Every general register but `r` is the same. -/
def SameRegsBut (r : RegId) (s t : State) : Prop := ∀ q, q ≠ r → t.getReg q = s.getReg q

/-- `dr` holds `v`, COND its flags, and nothing else has changed: the effect of an instruction with a destination. -/
def ResultIn (dr : RegId) (v : Word) (s t : State) : Prop :=
  t.getReg dr = v ∧ t.cond = flagsOf v ∧ SameRegsBut dr s t ∧ t.pc = s.pc ∧ SameMemory s t ∧ SameControl s t

/-- The word at `a` is `v` and nothing else has changed: the effect of a store. -/
def StoredAt (a v : Word) (s t : State) : Prop :=
  t.peek a = v ∧ (∀ b, b ≠ a → t.peek b = s.peek b) ∧ (∀ q, t.getReg q = s.getReg q) ∧ t.cond = s.cond ∧ t.pc = s.pc ∧
    SameControl s t

/-- R7 holds the incremented PC, PC the target, and nothing else has changed: the effect of JSR and JSRR. -/
def LinkedTo (target : Word) (s t : State) : Prop :=
  t.getReg 7 = s.pc ∧ t.pc = target ∧ SameRegsBut 7 s t ∧ t.cond = s.cond ∧ SameMemory s t ∧ SameControl s t

/-- R7 holds the PC and R0 the byte, zero-extended, with its flags; PC, the other registers, memory, `run`, `fault` and
`wait` are the same: what GETC and IN do with a byte (R161, R164). -/
def ByteInR0 (c : Byte) (s t : State) : Prop :=
  t.getReg 7 = s.pc ∧ t.getReg 0 = BitVec.ofNat 16 c.toNat ∧ t.cond = (if c = 0 then 0x0002 else 0x0001) ∧
    (∀ q, q ≠ 0 → q ≠ 7 → t.getReg q = s.getReg q) ∧ t.pc = s.pc ∧ SameMemory s t ∧ t.run = s.run ∧ t.fault = s.fault ∧
    t.wait = s.wait

/-- R7 holds the PC; every other register, COND, PC and `wait` are the same: the common entry of TRAP and no register
more (R160). -/
def OnlyR7 (s t : State) : Prop :=
  t.getReg 7 = s.pc ∧ SameRegsBut 7 s t ∧ t.cond = s.cond ∧ t.pc = s.pc ∧ t.wait = s.wait

/-- The loop of PUTS as R163 writes it: from address `a` and state `s` it ends in `t`. -/
inductive PutsLoop : Word → State → State → Prop where
  | done {a : Word} {s : State} : (memRead a s).1 = 0x0000 → PutsLoop a s (memRead a s).2
  | char {a : Word} {s t : State} : (memRead a s).1 ≠ 0x0000 →
      PutsLoop (a + 1) ((memRead a s).2.outByte ((memRead a s).1.extractLsb' 0 8)) t → PutsLoop a s t

/-- The loop of PUTSP as R165 writes it: from address `a` and state `s` it ends in `t`. -/
inductive PutspLoop : Word → State → State → Prop where
  | lowZero {a : Word} {s : State} : (memRead a s).1.extractLsb' 0 8 = 0#8 → PutspLoop a s (memRead a s).2
  | highZero {a : Word} {s : State} : (memRead a s).1.extractLsb' 0 8 ≠ 0#8 → (memRead a s).1.extractLsb' 8 8 = 0#8 →
      PutspLoop a s ((memRead a s).2.outByte ((memRead a s).1.extractLsb' 0 8))
  | chars {a : Word} {s t : State} : (memRead a s).1.extractLsb' 0 8 ≠ 0#8 → (memRead a s).1.extractLsb' 8 8 ≠ 0#8 →
      PutspLoop (a + 1) (((memRead a s).2.outByte ((memRead a s).1.extractLsb' 0 8)).outByte
        ((memRead a s).1.extractLsb' 8 8)) t →
      PutspLoop a s t

/-- The byte at place `j` of the packed bytes from address `a`: low byte first, then high byte (R59, R165). -/
def packedByte (s : State) (a : Word) (j : Nat) : Byte :=
  (s.peek (a + BitVec.ofNat 16 (j / 2))).extractLsb' (8 * (j % 2)) 8

/-- The general registers that the table of 10_state.md under R41 lets an instruction write. -/
def regsWritten (i : Instr) : List RegId :=
  match i with
  | .addReg dr _ _ | .addImm dr _ _ | .andReg dr _ _ | .andImm dr _ _ | .notReg dr _ | .ld dr _ | .ldi dr _ | .ldr dr _ _
  | .lea dr _ => [dr]
  | .jsr _ | .jsrr _ | .trapOut | .trapPuts | .trapPutsp | .trapHalt | .trapUnassigned _ => [7]
  | .trapGetc | .trapIn => [7, 0]
  | .br _ _ _ _ | .jmp _ | .st _ _ | .sti _ _ | .str _ _ _ | .rti _ | .res _ => []

/-- The register whose new value COND is set from, for the instructions of R28 that write COND. -/
def flagSource (i : Instr) : Option RegId :=
  match i with
  | .addReg dr _ _ | .addImm dr _ _ | .andReg dr _ _ | .andImm dr _ _ | .notReg dr _ | .ld dr _ | .ldi dr _ | .ldr dr _ _
  | .lea dr _ => some dr
  | .trapGetc | .trapIn => some 0
  | .br _ _ _ _ | .jmp _ | .jsr _ | .jsrr _ | .st _ _ | .sti _ _ | .str _ _ _ | .trapOut | .trapPuts | .trapPutsp
  | .trapHalt | .trapUnassigned _ | .rti _ | .res _ => none

/-- The address an instruction stores to, computed as its meaning computes it (R61). -/
def storeAddress (i : Instr) (s : State) : Option Word :=
  match i with
  | .st _ off9 => some (pcRelative off9 s)
  | .sti _ off9 => some (memRead (pcRelative off9 s) s).1
  | .str _ base off6 => some (baseOffset base off6 s)
  | .br _ _ _ _ | .addReg _ _ _ | .addImm _ _ _ | .ld _ _ | .jsr _ | .jsrr _ | .andReg _ _ _ | .andImm _ _ _ | .ldr _ _ _
  | .rti _ | .notReg _ _ | .ldi _ _ | .jmp _ | .res _ | .lea _ _ | .trapGetc | .trapOut | .trapPuts | .trapIn | .trapPutsp
  | .trapHalt | .trapUnassigned _ => none

/-- The addresses an instruction other than PUTS and PUTSP reads after its fetch, in order (R61); `none` for those two,
whose walk has no length the instruction fixes. -/
def dataReads (i : Instr) (s : State) : Option (List Word) :=
  match i with
  | .ld _ off9 => some [pcRelative off9 s]
  | .ldr _ base off6 => some [baseOffset base off6 s]
  | .ldi _ off9 => some [pcRelative off9 s, (memRead (pcRelative off9 s) s).1]
  | .sti _ off9 => some [pcRelative off9 s]
  | .trapPuts | .trapPutsp => none
  | .br _ _ _ _ | .addReg _ _ _ | .addImm _ _ _ | .st _ _ | .str _ _ _ | .jsr _ | .jsrr _ | .andReg _ _ _ | .andImm _ _ _
  | .rti _ | .notReg _ _ | .jmp _ | .res _ | .lea _ _ | .trapGetc | .trapOut | .trapIn
  | .trapHalt | .trapUnassigned _ => some []

/-- The instructions that write to the output log (R236). -/
def writesOutput (i : Instr) : Bool :=
  match i with
  | .trapOut | .trapPuts | .trapIn | .trapPutsp | .trapHalt => true
  | .br _ _ _ _ | .addReg _ _ _ | .addImm _ _ _ | .ld _ _ | .st _ _ | .jsr _ | .jsrr _ | .andReg _ _ _ | .andImm _ _ _
  | .ldr _ _ _ | .str _ _ _ | .rti _ | .notReg _ _ | .ldi _ _ | .sti _ _ | .jmp _ | .res _ | .lea _ _ | .trapGetc
  | .trapUnassigned _ => false

/-- PC after an instruction fetched at `a`, with the registers of `s`, by the list of R135. -/
def pcAfter (i : Instr) (a : Word) (s : State) : Word :=
  match i with
  | .br n z p off9 =>
    if (s.cond.getLsbD 2 && n) || (s.cond.getLsbD 1 && z) || (s.cond.getLsbD 0 && p) then plus (a + 1) off9 else a + 1
  | .jmp base => s.getReg base
  | .jsr off11 => plus (a + 1) off11
  | .jsrr base => if base = 7 then a + 1 else s.getReg base
  | .addReg _ _ _ | .addImm _ _ _ | .andReg _ _ _ | .andImm _ _ _ | .notReg _ _ | .ld _ _ | .ldi _ _ | .ldr _ _ _
  | .lea _ _ | .st _ _ | .sti _ _ | .str _ _ _ | .rti _ | .res _ | .trapGetc | .trapOut | .trapPuts | .trapIn | .trapPutsp
  | .trapHalt | .trapUnassigned _ => a + 1

/-- The fault an instruction raises, by the table under R180: from the instruction, its word and the input. -/
def faultRaised (i : Instr) (w : Word) (cin : ConsoleIn) : Option FaultRecord :=
  match i with
  | .rti _ | .res _ => some (.illegalOpcode w)
  | .trapUnassigned _ => some (.badTrapVector (w.extractLsb' 0 8))
  | .trapGetc | .trapIn => if cin.bytes = [] ∧ cin.closes = true then some .consoleInputClosed else none
  | .br _ _ _ _ | .addReg _ _ _ | .addImm _ _ _ | .ld _ _ | .st _ _ | .jsr _ | .jsrr _ | .andReg _ _ _ | .andImm _ _ _
  | .ldr _ _ _ | .str _ _ _ | .notReg _ _ | .ldi _ _ | .sti _ _ | .jmp _ | .lea _ _ | .trapOut | .trapPuts | .trapPutsp
  | .trapHalt => none

/-- `k` keyboard polls with the given answers of the host, the first being answer number 0. -/
def pollTimes (answers : Nat → Bool) (k : Nat) (s : State) : State :=
  match k with
  | 0 => s
  | k + 1 => kbdPoll (answers k) (pollTimes answers k s)

end Sys2Proof.Claims

open Sys2Proof Sys2Proof.Machine Sys2Proof.Claims

/-! ### Reset, the step, the decoder -/

/-- R35, R36, R37: what reset leaves, whatever the open parameters hold. -/
def Obligations.ResetLeavesTheSpecifiedState : Prop :=
  ∀ p : BootParams, (State.boot p).run = .running ∧ (State.boot p).fault = none ∧ (State.boot p).pc = 0x3000 ∧
    (State.boot p).cond = 0x0002 ∧ (State.boot p).regs = p.gprReset ∧ (State.boot p).mem = p.memInit ∧
    (State.boot p).cin = p.consoleIn ∧ (State.boot p).cout = []

/-- R110 to R112, R117: a machine that can step reads the word at PC through `MemRead`, adds one to PC, and runs the
instruction the word decodes to on that state. The premise that no GETC or IN is in progress speaks of the model's own
field `wait`, log entry 9 (DESIGN CHOICE). -/
def Obligations.StepRunsTheDecodedInstruction : Prop :=
  ∀ s : State, s.run = .running → s.fault = none → s.wait = none →
    (∀ i, decode (memRead s.pc s).1 = i → step s = exec i ((memRead s.pc s).2.setPc (s.pc + 1))) ∧
    (s.pc ≠ 0xFE00 → step s = exec (decode (s.peek s.pc)) (s.setPc (s.pc + 1)))

/-- R110: a halted or aborted machine has no step. -/
def Obligations.StoppedMachineHasNoStep : Prop :=
  ∀ s : State, (s.run = .halted ∨ s.fault ≠ none) ↔
    (step s = .fault .halted ∧ s.fault = none) ∨ (∃ r, step s = .fault (.aborted r) ∧ s.fault = some r)

/-- Words written out from R82, R83 and R89 decode to the instructions they stand for; one for each opcode and service. -/
def Obligations.WrittenWordsDecode : Prop :=
  decode 0x0805 = .br true false false 5 ∧ decode 0x14C4 = .addReg 2 3 4 ∧ decode 0x127F = .addImm 1 1 0x1F ∧
    decode 0x2204 = .ld 1 4 ∧ decode 0x37FE = .st 3 0x1FE ∧ decode 0x4803 = .jsr 3 ∧ decode 0x4080 = .jsrr 2 ∧
    decode 0x54C4 = .andReg 2 3 4 ∧ decode 0x5020 = .andImm 0 0 0 ∧ decode 0x62BF = .ldr 1 2 0x3F ∧
    decode 0x7283 = .str 1 2 3 ∧ decode 0x8ABC = .rti 0xABC ∧ decode 0x92BF = .notReg 1 2 ∧ decode 0xA405 = .ldi 2 5 ∧
    decode 0xB006 = .sti 0 6 ∧ decode 0xC1C0 = .jmp 7 ∧ decode 0xD123 = .res 0x123 ∧ decode 0xE002 = .lea 0 2 ∧
    decode 0xF020 = .trapGetc ∧ decode 0xF021 = .trapOut ∧ decode 0xF022 = .trapPuts ∧ decode 0xF023 = .trapIn ∧
    decode 0xF024 = .trapPutsp ∧ decode 0xFF25 = .trapHalt ∧ decode 0xF026 = .trapUnassigned 0x26

/-- Every well-formed instruction, with every operand, is what its encoding decodes to. -/
def Obligations.DecodeOfEncodeIsTheInstruction : Prop :=
  ∀ i : Instr, i.wellFormed = true → decode (encode i) = i

/-- Every word decodes to a well-formed instruction whose encoding agrees with the word on every bit R87 does not list
as unused. -/
def Obligations.EveryWordIsAnEncoding : Prop :=
  ∀ w : Word, (decode w).wellFormed = true ∧ encode (decode w) &&& (decode w).usedMask = w &&& (decode w).usedMask

/-- R87: words that differ in unused bits alone mean the same; RTI and RES fault whatever bits 11:0 hold. -/
def Obligations.UnusedBitsAreIgnored : Prop :=
  (∀ w w' : Word, w &&& 0xF020 = 0x1000 → (w ^^^ w') &&& 0xFFE7 = 0 → decode w' = decode w) ∧
  (∀ w w' : Word, w &&& 0xF020 = 0x5000 → (w ^^^ w') &&& 0xFFE7 = 0 → decode w' = decode w) ∧
  (∀ w w' : Word, w &&& 0xF000 = 0x9000 → (w ^^^ w') &&& 0xFFC0 = 0 → decode w' = decode w) ∧
  (∀ w w' : Word, w &&& 0xF000 = 0xC000 → (w ^^^ w') &&& 0xF1C0 = 0 → decode w' = decode w) ∧
  (∀ w w' : Word, w &&& 0xF800 = 0x4000 → (w ^^^ w') &&& 0xF9C0 = 0 → decode w' = decode w) ∧
  (∀ w w' : Word, w &&& 0xF000 = 0xF000 → (w ^^^ w') &&& 0xF0FF = 0 → decode w' = decode w) ∧
  (∀ (w : Word) (s : State), w &&& 0xF000 = 0x8000 ∨ w &&& 0xF000 = 0xD000 →
    ∃ t, exec (decode w) s = .next t ∧ t.fault = some (.illegalOpcode w))

/-- R90 (the encodings; the counts are left out): the words whose dispatch raises a fault whatever the state, and only
they, decode to RTI, RES or an unassigned vector. -/
def Obligations.IllegalWordsAreTheUnassignedOnes : Prop :=
  ∀ w : Word,
    ((∃ low, decode w = .rti low) ↔ w &&& 0xF000 = 0x8000) ∧
    ((∃ low, decode w = .res low) ↔ w &&& 0xF000 = 0xD000) ∧
    ((∃ v, decode w = .trapUnassigned v) ↔
      w &&& 0xF000 = 0xF000 ∧ ((w &&& 0x00FF).toNat < 0x20 ∨ 0x25 < (w &&& 0x00FF).toNat))

/-! ### The operate instructions -/

/-- R120. -/
def Obligations.AddRegisterWritesTheSum : Prop :=
  (∀ w : Word, w &&& 0xF020 = 0x1000 → decode w = .addReg (regAt w 9) (regAt w 6) (regAt w 0)) ∧
  ∀ (dr sr1 sr2 : RegId) (s : State), ∃ t, exec (.addReg dr sr1 sr2) s = .next t ∧
    ResultIn dr (BitVec.ofNat 16 ((s.getReg sr1).toNat + (s.getReg sr2).toNat)) s t

/-- R121. -/
def Obligations.AddImmediateWritesTheSum : Prop :=
  (∀ w : Word, w &&& 0xF020 = 0x1020 → decode w = .addImm (regAt w 9) (regAt w 6) (w.extractLsb' 0 5)) ∧
  ∀ (dr sr1 : RegId) (imm5 : BitVec 5) (s : State), ∃ t, exec (.addImm dr sr1 imm5) s = .next t ∧
    ResultIn dr (plus (s.getReg sr1) imm5) s t

/-- R122, R126. -/
def Obligations.AndRegisterWritesTheConjunction : Prop :=
  (∀ w : Word, w &&& 0xF020 = 0x5000 → decode w = .andReg (regAt w 9) (regAt w 6) (regAt w 0)) ∧
  ∀ (dr sr1 sr2 : RegId) (s : State), ∃ t v, exec (.andReg dr sr1 sr2) s = .next t ∧ ResultIn dr v s t ∧
    ∀ k < 16, v.getLsbD k = ((s.getReg sr1).getLsbD k && (s.getReg sr2).getLsbD k)

/-- R123: the immediate is sign-extended, so bits 15:5 of the mask are its bit 4. -/
def Obligations.AndImmediateWritesTheConjunction : Prop :=
  (∀ w : Word, w &&& 0xF020 = 0x5020 → decode w = .andImm (regAt w 9) (regAt w 6) (w.extractLsb' 0 5)) ∧
  ∀ (dr sr1 : RegId) (imm5 : BitVec 5) (s : State), ∃ t v, exec (.andImm dr sr1 imm5) s = .next t ∧ ResultIn dr v s t ∧
    ∀ k < 16, v.getLsbD k = ((s.getReg sr1).getLsbD k && imm5.getLsbD (if k < 5 then k else 4))

/-- R124: `~a = 0xFFFF - a`. -/
def Obligations.NotWritesTheComplement : Prop :=
  (∀ w : Word, w &&& 0xF000 = 0x9000 → decode w = .notReg (regAt w 9) (regAt w 6)) ∧
  ∀ (dr sr1 : RegId) (s : State), ∃ t, exec (.notReg dr sr1) s = .next t ∧
    ResultIn dr (BitVec.ofNat 16 (0xFFFF - (s.getReg sr1).toNat)) s t

/-! ### The control transfers -/

/-- R130: PC takes the target when a condition bit faces a set flag, and nothing else changes; otherwise nothing does. A
BR with no condition bit never branches; one with all three always does, in a state that keeps R26 (R91). -/
def Obligations.BranchGoesWhereAFlagMatches : Prop :=
  (∀ w : Word, w &&& 0xF000 = 0x0000 →
    decode w = .br (w.getLsbD 11) (w.getLsbD 10) (w.getLsbD 9) (w.extractLsb' 0 9)) ∧
  (∀ (n z p : Bool) (off9 : BitVec 9) (s : State), exec (.br n z p off9) s =
    .next { s with
      pc := if (s.cond.getLsbD 2 && n) || (s.cond.getLsbD 1 && z) || (s.cond.getLsbD 0 && p) then plus s.pc off9
            else s.pc }) ∧
  (∀ (off9 : BitVec 9) (s : State), exec (.br false false false off9) s = .next s) ∧
  ∀ (off9 : BitVec 9) (s : State), s.Inv → exec (.br true true true off9) s = .next { s with pc := plus s.pc off9 }

/-- R131: RET is the form with BaseR = 7. -/
def Obligations.JumpGoesToTheBaseRegister : Prop :=
  (∀ w : Word, w &&& 0xF000 = 0xC000 → decode w = .jmp (regAt w 6)) ∧
  ∀ (base : RegId) (s : State), exec (.jmp base) s = .next { s with pc := s.getReg base }

/-- R132. -/
def Obligations.JsrLinksAndGoesToTheOffset : Prop :=
  (∀ w : Word, w &&& 0xF800 = 0x4800 → decode w = .jsr (w.extractLsb' 0 11)) ∧
  ∀ (off11 : BitVec 11) (s : State), ∃ t, exec (.jsr off11) s = .next t ∧ LinkedTo (plus s.pc off11) s t

/-- R133: R7 is written first and BaseR read after, so `JSRR R7` falls through. -/
def Obligations.JsrrLinksThenReadsTheBase : Prop :=
  (∀ w : Word, w &&& 0xF800 = 0x4000 → decode w = .jsrr (regAt w 6)) ∧
  ∀ (base : RegId) (s : State), ∃ t, exec (.jsrr base) s = .next t ∧
    LinkedTo (if base = 7 then s.pc else s.getReg base) s t

/-! ### Loads and stores -/

/-- R140: a read of KBSR loads the fresh status, 0x8000 with N or 0x0000 with Z. -/
def Obligations.LdLoadsFromThePcRelativeAddress : Prop :=
  (∀ w : Word, w &&& 0xF000 = 0x2000 → decode w = .ld (regAt w 9) (w.extractLsb' 0 9)) ∧
  ∀ (dr : RegId) (off9 : BitVec 9) (s : State), ∃ t, exec (.ld dr off9) s = .next t ∧
    ResultIn dr (memRead (plus s.pc off9) s).1 (memRead (plus s.pc off9) s).2 t ∧
    (plus s.pc off9 = 0xFE00 →
      (t.getReg dr = 0x8000 ∧ t.cond = 0x0004) ∨ (t.getReg dr = 0x0000 ∧ t.cond = 0x0002))

/-- R141: the pointer first, then the word it points at; the flags come from that word. -/
def Obligations.LdiLoadsThroughThePointer : Prop :=
  (∀ w : Word, w &&& 0xF000 = 0xA000 → decode w = .ldi (regAt w 9) (w.extractLsb' 0 9)) ∧
  ∀ (dr : RegId) (off9 : BitVec 9) (s p : State) (ptr : Word), memRead (plus s.pc off9) s = (ptr, p) →
    ∃ t, exec (.ldi dr off9) s = .next t ∧ ResultIn dr (memRead ptr p).1 (memRead ptr p).2 t

/-- R142. -/
def Obligations.LdrLoadsFromBasePlusOffset : Prop :=
  (∀ w : Word, w &&& 0xF000 = 0x6000 → decode w = .ldr (regAt w 9) (regAt w 6) (w.extractLsb' 0 6)) ∧
  ∀ (dr base : RegId) (off6 : BitVec 6) (s : State), ∃ t, exec (.ldr dr base off6) s = .next t ∧
    ResultIn dr (memRead (plus (s.getReg base) off6) s).1 (memRead (plus (s.getReg base) off6) s).2 t

/-- R143: no memory is accessed, and the flags are set from the address. -/
def Obligations.LeaWritesTheAddressAndItsFlags : Prop :=
  (∀ w : Word, w &&& 0xF000 = 0xE000 → decode w = .lea (regAt w 9) (w.extractLsb' 0 9)) ∧
  ∀ (dr : RegId) (off9 : BitVec 9) (s : State), ∃ t, exec (.lea dr off9) s = .next t ∧
    ResultIn dr (plus s.pc off9) s t

/-- R144. -/
def Obligations.StStoresAtThePcRelativeAddress : Prop :=
  (∀ w : Word, w &&& 0xF000 = 0x3000 → decode w = .st (regAt w 9) (w.extractLsb' 0 9)) ∧
  ∀ (sr : RegId) (off9 : BitVec 9) (s : State), pcRelative off9 s = plus s.pc off9 ∧
    ∃ t, exec (.st sr off9) s = .next t ∧ StoredAt (pcRelative off9 s) (s.getReg sr) s t

/-- R145: one read for the pointer, then the write at it. -/
def Obligations.StiStoresThroughThePointer : Prop :=
  (∀ w : Word, w &&& 0xF000 = 0xB000 → decode w = .sti (regAt w 9) (w.extractLsb' 0 9)) ∧
  ∀ (sr : RegId) (off9 : BitVec 9) (s p : State) (ptr : Word), memRead (pcRelative off9 s) s = (ptr, p) →
    pcRelative off9 s = plus s.pc off9 ∧ ∃ t, exec (.sti sr off9) s = .next t ∧ StoredAt ptr (s.getReg sr) p t

/-- R146. -/
def Obligations.StrStoresAtBasePlusOffset : Prop :=
  (∀ w : Word, w &&& 0xF000 = 0x7000 → decode w = .str (regAt w 9) (regAt w 6) (w.extractLsb' 0 6)) ∧
  ∀ (sr base : RegId) (off6 : BitVec 6) (s : State), baseOffset base off6 s = plus (s.getReg base) off6 ∧
    ∃ t, exec (.str sr base off6) s = .next t ∧ StoredAt (baseOffset base off6 s) (s.getReg sr) s t

/-! ### TRAP -/

/-- R161, R183, R233: a byte, the closed input, or an open input with nothing to deliver. The state of the last case, R7
written and `wait` set, is the model's form of the hold, log entry 9 (DESIGN CHOICE). -/
def Obligations.GetcReadsOneByte : Prop :=
  (∀ w : Word, w &&& 0xF0FF = 0xF020 → decode w = .trapGetc) ∧
  (∀ (s : State) (c : Byte) (rest : List Byte), s.cin.bytes = c :: rest →
    ∃ t, exec .trapGetc s = .next t ∧ ByteInR0 c s t ∧ t.cin = { s.cin with bytes := rest } ∧ t.cout = s.cout) ∧
  (∀ s : State, s.cin.bytes = [] → s.cin.closes = true →
    ∃ t, exec .trapGetc s = .next t ∧ t.fault = some .consoleInputClosed ∧ OnlyR7 s t ∧ SameMemory s t ∧
      t.run = s.run ∧ t.cin = s.cin ∧ t.cout = s.cout) ∧
  ∀ s : State, s.cin.bytes = [] → s.cin.closes = false →
    exec .trapGetc s = .next { s.setReg 7 s.pc with wait := some .getc }

/-- R162. -/
def Obligations.OutWritesTheLowByte : Prop :=
  (∀ w : Word, w &&& 0xF0FF = 0xF021 → decode w = .trapOut) ∧
  ∀ s : State, ∃ t, exec .trapOut s = .next t ∧ t.cout = s.cout ++ [(s.getReg 0).extractLsb' 0 8] ∧ OnlyR7 s t ∧
    SameMemory s t ∧ t.run = s.run ∧ t.fault = s.fault ∧ t.cin = s.cin

/-- R163, for every state, KBSR and the wrap at 0xFFFF among the addresses: PUTS completes, and its end state is the one
the rule's loop ends in. That no state gives the loop no end is log entry 10 (DEDUCED), not R163's word: each lap of memory
reads KBSR, which answers the zero word of a poll that finds nothing or consumes one byte of the finite input (R53 to R55,
R231). -/
def Obligations.PutsRunsItsLoopToTheEnd : Prop :=
  (∀ w : Word, w &&& 0xF0FF = 0xF022 → decode w = .trapPuts) ∧
  ∀ s : State, ∃ t, exec .trapPuts s = .next t ∧ PutsLoop (s.getReg 0) (s.setReg 7 s.pc) t ∧ OnlyR7 s t ∧
    (∀ a, a ≠ 0xFE00 → a ≠ 0xFE02 → t.peek a = s.peek a) ∧ t.run = s.run ∧ t.fault = s.fault

/-- R163: a string of `n` non-zero words before a zero word, clear of KBSR, is written as its low bytes, and nothing but
R7 and the output log changes. -/
def Obligations.PutsWritesAZeroTerminatedString : Prop :=
  ∀ (s : State) (n : Nat), (∀ k, k ≤ n → s.getReg 0 + BitVec.ofNat 16 k ≠ 0xFE00) →
    (∀ k, k < n → s.peek (s.getReg 0 + BitVec.ofNat 16 k) ≠ 0) → s.peek (s.getReg 0 + BitVec.ofNat 16 n) = 0 →
    exec .trapPuts s = .next { s.setReg 7 s.pc with
      cout := s.cout ++ (List.range n).map fun k => (s.peek (s.getReg 0 + BitVec.ofNat 16 k)).extractLsb' 0 8 }

/-- R164, R183, R233: prompt, byte, echo; with the input closed the prompt has been written and R0 and COND have not; so
too while the input is open and empty, in the model's form of the hold, log entry 9 (DESIGN CHOICE). -/
def Obligations.InPromptsReadsAndEchoes : Prop :=
  (∀ w : Word, w &&& 0xF0FF = 0xF023 → decode w = .trapIn) ∧
  (∀ (s : State) (c : Byte) (rest : List Byte), s.cin.bytes = c :: rest →
    ∃ t, exec .trapIn s = .next t ∧ ByteInR0 c s t ∧ t.cin = { s.cin with bytes := rest } ∧
      t.cout = s.cout ++ Config.inPrompt ++ [c]) ∧
  (∀ s : State, s.cin.bytes = [] → s.cin.closes = true →
    ∃ t, exec .trapIn s = .next t ∧ t.fault = some .consoleInputClosed ∧ OnlyR7 s t ∧ SameMemory s t ∧
      t.run = s.run ∧ t.cin = s.cin ∧ t.cout = s.cout ++ Config.inPrompt) ∧
  ∀ s : State, s.cin.bytes = [] → s.cin.closes = false →
    exec .trapIn s = .next { s.setReg 7 s.pc with cout := s.cout ++ Config.inPrompt, wait := some .inEcho }

/-- R195, R233, R161, R164: a GETC or IN in progress is held while the input is open and empty; a byte ends it with R0 and
the flags, after IN's echo; the closing of the input ends it with the fault; and what a delivery of the host is. The field
`wait` and the delivery are the model's form, log entry 9 (DESIGN CHOICE). -/
def Obligations.AWaitEndsWithAByteOrTheClosingOnly : Prop :=
  ∀ (w : Wait) (s : State), s.held w →
    (s.cin.bytes = [] → s.cin.closes = false → step s = .fault .heldForInput) ∧
    (∀ c rest, s.cin.bytes = c :: rest → ∃ t, step s = .next t ∧
      ResultIn 0 (BitVec.ofNat 16 c.toNat) { s with
        wait := none
        cin := { s.cin with bytes := rest }
        cout := s.cout ++ (if w = .inEcho then [c] else []) } t) ∧
    (s.cin.bytes = [] → s.cin.closes = true →
      step s = .next { s with wait := none, fault := some .consoleInputClosed }) ∧
    (s.cin.closes = false → ∀ bs closes,
      s.deliver bs closes = { s with cin := { bytes := s.cin.bytes ++ bs, closes } })

/-- R233 ("however long the byte takes to arrive; time is not modelled"): a GETC or IN that waits and is then given input,
or the closing, ends in the state it would have reached had the delivery come before it. The form of the wait is log entry
9 (DESIGN CHOICE). -/
def Obligations.AWaitChangesNothingInTheEnd : Prop :=
  ∀ (i : Instr) (s : State) (bs : List Byte) (closes : Bool), i = .trapGetc ∨ i = .trapIn →
    s.run = .running → s.fault = none → s.wait = none → s.cin.bytes = [] → s.cin.closes = false →
    (bs ≠ [] ∨ closes = true) →
    ∃ t u, exec i s = .next t ∧ step (t.deliver bs closes) = .next u ∧ exec i (s.deliver bs closes) = .next u

/-- R165, for every state: PUTSP completes, and its end state is the one the rule's loop ends in. That it always completes
is log entry 10 (DEDUCED), not R165's word. -/
def Obligations.PutspRunsItsLoopToTheEnd : Prop :=
  (∀ w : Word, w &&& 0xF0FF = 0xF024 → decode w = .trapPutsp) ∧
  ∀ s : State, ∃ t, exec .trapPutsp s = .next t ∧ PutspLoop (s.getReg 0) (s.setReg 7 s.pc) t ∧ OnlyR7 s t ∧
    (∀ a, a ≠ 0xFE00 → a ≠ 0xFE02 → t.peek a = s.peek a) ∧ t.run = s.run ∧ t.fault = s.fault

/-- R165: `n` non-zero packed bytes before a zero byte, clear of KBSR, are written in order, low byte before high, and
nothing but R7 and the output log changes. -/
def Obligations.PutspWritesAZeroTerminatedPackedString : Prop :=
  ∀ (s : State) (n : Nat), (∀ j, j ≤ n → s.getReg 0 + BitVec.ofNat 16 (j / 2) ≠ 0xFE00) →
    (∀ j, j < n → packedByte s (s.getReg 0) j ≠ 0) → packedByte s (s.getReg 0) n = 0 →
    exec .trapPutsp s = .next { s.setReg 7 s.pc with
      cout := s.cout ++ (List.range n).map (packedByte s (s.getReg 0)) }

/-- R166: the announcement, then the stop; a machine halted without a fault has no step. -/
def Obligations.HaltAnnouncesAndStops : Prop :=
  (∀ w : Word, w &&& 0xF0FF = 0xF025 → decode w = .trapHalt) ∧
  ∀ s : State, ∃ t, exec .trapHalt s = .next t ∧ t.run = .halted ∧ t.cout = s.cout ++ Config.haltMsg ∧ OnlyR7 s t ∧
    SameMemory s t ∧ t.fault = s.fault ∧ t.cin = s.cin ∧ (s.fault = none → step t = .fault .halted)

/-- R167, R182: the fault is recorded after R7 is written. -/
def Obligations.UnassignedVectorLinksThenFaults : Prop :=
  (∀ w : Word, w &&& 0xF000 = 0xF000 → ((w &&& 0x00FF).toNat < 0x20 ∨ 0x25 < (w &&& 0x00FF).toNat) →
    decode w = .trapUnassigned (w.extractLsb' 0 8)) ∧
  ∀ (vect : Byte) (s : State), ∃ t, exec (.trapUnassigned vect) s = .next t ∧ t.fault = some (.badTrapVector vect) ∧
    OnlyR7 s t ∧ SameMemory s t ∧ t.run = s.run ∧ t.cin = s.cin ∧ t.cout = s.cout

/-- R168, R181: from the word to the fault that records it; no other state changes. -/
def Obligations.RtiRaisesIllegalOpcode : Prop :=
  (∀ w : Word, w &&& 0xF000 = 0x8000 → decode w = .rti (w.extractLsb' 0 12)) ∧
  (∀ (w : Word) (s : State), w &&& 0xF000 = 0x8000 →
    exec (decode w) s = .next { s with fault := some (.illegalOpcode w) }) ∧
  ∀ (low : BitVec 12) (s : State), exec (.rti low) s = .next { s with fault := some (.illegalOpcode (0x8#4 ++ low)) }

/-- R169, R181: as RTI. -/
def Obligations.ResRaisesIllegalOpcode : Prop :=
  (∀ w : Word, w &&& 0xF000 = 0xD000 → decode w = .res (w.extractLsb' 0 12)) ∧
  (∀ (w : Word) (s : State), w &&& 0xF000 = 0xD000 →
    exec (decode w) s = .next { s with fault := some (.illegalOpcode w) }) ∧
  ∀ (low : BitVec 12) (s : State), exec (.res low) s = .next { s with fault := some (.illegalOpcode (0xD#4 ++ low)) }

/-! ### The whole machine -/

/-- R25, R26, the canonical form of memory (log entries 7 and 8, DESIGN CHOICE), and that only a running machine has an
instruction in progress (log entry 9, DESIGN CHOICE): every step keeps the invariant, from every state that has it. -/
def Obligations.EveryStepKeepsTheMachineWellFormed : Prop :=
  ∀ s t : State, s.Inv → step s = .next t → t.Inv

/-- The invariant holds when the core leaves reset, for every value of the open parameters whose memory is in canonical
form (log entries 7 and 8, DESIGN CHOICE), the host's reset state among them; and the first step fetches (R210). -/
def Obligations.ResetIsWellFormed : Prop :=
  (∀ p : BootParams, Memory.wf p.memInit → (State.boot p).Inv) ∧ State.reset.Inv ∧
  ∀ p : BootParams, (State.boot p).canStep

/-- R110, R184, R233: every instruction leads to a next state, and so does every step of a running machine without a
fault, but for a GETC or IN in progress while the input is open and empty, which is held. That PUTS and PUTSP are no
exception is log entry 10 (DEDUCED), where R114 names them among the steps that may never complete; the form of the wait is
log entry 9 (DESIGN CHOICE). -/
def Obligations.EveryStepCompletesButAWaitForInput : Prop :=
  (∀ (i : Instr) (s : State), ∃ t, exec i s = .next t) ∧
  ∀ s : State, s.run = .running → s.fault = none →
    (∃ t, step s = .next t) ∨
    (step s = .fault .heldForInput ∧ (∃ w, s.held w) ∧ s.cin.bytes = [] ∧ s.cin.closes = false)

/-- R41: a register read after a write returns the value written, and no instruction changes a general register that its
rule does not name as written. -/
def Obligations.RegistersChangeOnlyWhereTheRuleNames : Prop :=
  (∀ (s : State) (r : RegId) (v : Word), (s.setReg r v).getReg r = v) ∧
  ∀ (i : Instr) (s t : State), exec i s = .next t → ∀ r, r ∉ regsWritten i → t.getReg r = s.getReg r

/-- R28, R27: COND is written by `setcc` of the value just written, by exactly the instructions R28 lists; a GETC or IN that
finds no byte has not come to it: it has raised its fault, or waits (log entry 9, DESIGN CHOICE). -/
def Obligations.CondIsSetFromTheDestinationOnly : Prop :=
  ∀ (i : Instr) (s t : State), exec i s = .next t →
    match flagSource i with
    | none => t.cond = s.cond
    | some dr => t.cond = flagsOf (t.getReg dr) ∨
        (t.cond = s.cond ∧ (i = .trapGetc ∨ i = .trapIn) ∧ s.cin.bytes = [] ∧
          if s.cin.closes then t.fault = some .consoleInputClosed else t.wait ≠ none)

/-- R28: no instruction but BR reads COND: two states that differ in COND alone go to states that differ in COND alone. That
there is a next state to go to is the model's for PUTS and PUTSP from every state (log entry 10, DEDUCED) and for GETC and
IN on an open and empty input (log entry 9, DESIGN CHOICE). -/
def Obligations.CondIsReadOnlyByBranches : Prop :=
  ∀ (i : Instr) (s : State) (c : Word), (∀ n z p off9, i ≠ .br n z p off9) →
    ∃ t d, exec i s = .next t ∧ exec i { s with cond := c } = .next { t with cond := d }

/-- R135: PC after each instruction, from the address it was fetched at. -/
def Obligations.PcAfterEachInstruction : Prop :=
  ∀ s t : State, exec (decode (fetch s).1) (fetch s).2 = .next t → t.pc = pcAfter (decode (fetch s).1) s.pc s

/-- R56, R61: a word of memory changes only where the instruction stores, or, in the two device slots, where it reads
KBSR; PUTS and PUTSP, which may read it on their walk, change no word but those two. -/
def Obligations.MemoryChangesOnlyByStoresAndPolls : Prop :=
  ∀ (i : Instr) (s t : State), exec i s = .next t →
    (∀ a, storeAddress i s ≠ some a → a ≠ 0xFE00 → a ≠ 0xFE02 → t.peek a = s.peek a) ∧
    (∀ reads, dataReads i s = some reads → 0xFE00 ∉ reads → ∀ a, storeAddress i s ≠ some a → t.peek a = s.peek a)

/-- R30: the Running State goes to Halted by TRAP HALT alone, and TRAP HALT always brings it there. The
instruction is the one the step carries out, a GETC or IN in progress (log entry 9) or the fetched one. -/
def Obligations.OnlyTrapHaltHalts : Prop :=
  ∀ s t : State, step s = .next t → (t.run = .halted ↔ s.current = .trapHalt)

/-- R180 to R184: the faults are exactly those of the table, with the info it names; a GETC or IN in progress raises its
own when it goes on (log entry 9, DESIGN CHOICE). -/
def Obligations.FaultsAreExactlyTheTableOfCauses : Prop :=
  ∀ s t : State, step s = .next t → t.fault = faultRaised s.current (fetch s).1 s.entered.cin

/-- R234, R236: the output log is append-only, and only OUT, PUTS, IN, PUTSP and HALT write to it, the
echo of an IN in progress (log entry 9) included. -/
def Obligations.OutputLogOnlyGrows : Prop :=
  ∀ s t : State, step s = .next t →
    (∃ written, t.cout = s.cout ++ written) ∧ (writesOutput s.current = false → t.cout = s.cout)

/-- R231: input bytes are consumed from the front, in order, by GETC, IN and reads of KBSR alone, and whether the source
closes never changes. -/
def Obligations.InputIsConsumedInOrder : Prop :=
  ∀ (i : Instr) (s t : State), exec i s = .next t →
    (∃ taken, s.cin.bytes = taken ++ t.cin.bytes) ∧ t.cin.closes = s.cin.closes ∧
    (∀ reads, dataReads i s = some reads → 0xFE00 ∉ reads → i ≠ .trapGetc → i ≠ .trapIn → t.cin = s.cin)

/-! ### The memory interface -/

/-- R53, R58: a read of any address but KBSR, KBDR among them, returns the content and changes nothing; a read of KBSR
polls and returns the status the poll left. -/
def Obligations.ReadsArePureButForKbsr : Prop :=
  ∀ (a : Word) (s : State),
    (a ≠ 0xFE00 → memRead a s = (s.peek a, s)) ∧
    (a = 0xFE00 → ∃ arrived, (memRead a s).2 = kbdPoll arrived s ∧ (memRead a s).1 = (kbdPoll arrived s).peek 0xFE00)

/-- R54, R55, R232: the poll that finds a byte and the poll that finds none, with what each leaves alone. -/
def Obligations.PollWritesTheDeviceSlots : Prop :=
  ∀ (arrived : Bool) (s : State),
    (∀ q, (kbdPoll arrived s).getReg q = s.getReg q) ∧ (kbdPoll arrived s).pc = s.pc ∧
    (kbdPoll arrived s).cond = s.cond ∧ (kbdPoll arrived s).run = s.run ∧ (kbdPoll arrived s).fault = s.fault ∧
    (kbdPoll arrived s).wait = s.wait ∧ (kbdPoll arrived s).cout = s.cout ∧
    (∀ a, a ≠ 0xFE00 → a ≠ 0xFE02 → (kbdPoll arrived s).peek a = s.peek a) ∧
    (∀ c rest, s.cin.bytes = c :: rest → arrived = true →
      (kbdPoll arrived s).peek 0xFE00 = 0x8000 ∧ (kbdPoll arrived s).peek 0xFE02 = BitVec.ofNat 16 c.toNat ∧
      (kbdPoll arrived s).cin = { s.cin with bytes := rest }) ∧
    (s.cin.bytes = [] ∨ arrived = false →
      (kbdPoll arrived s).peek 0xFE00 = 0x0000 ∧ (kbdPoll arrived s).peek 0xFE02 = s.peek 0xFE02 ∧
      (kbdPoll arrived s).cin = s.cin)

/-- R57, R64: a load returns the most recent store to its address, but at KBSR, where no stored value is ever seen: the
read answers as if nothing had been stored. -/
def Obligations.LoadsSeeTheLastStoreButAtKbsr : Prop :=
  ∀ (a v b : Word) (s : State),
    (memWrite a v s).cin = s.cin ∧
    (b ≠ 0xFE00 → (memRead b (memWrite a v s)).1 = if b = a then v else (memRead b s).1) ∧
    (memRead 0xFE00 (memWrite a v s)).1 = (memRead 0xFE00 s).1 ∧
    ((memRead 0xFE00 s).1 = 0x8000 ∨ (memRead 0xFE00 s).1 = 0x0000)

/-- R63: an instruction fetched from KBSR is the status the poll produced: RTI, and its fault, when the poll finds a byte;
a BR that never branches when it does not. The free draw of R232 decides only while a byte is pending. -/
def Obligations.FetchFromKbsrRunsTheStatus : Prop :=
  ∀ s : State, s.run = .running → s.fault = none → s.wait = none → s.pc = 0xFE00 → ∃ t, step s = .next t ∧
    t.pc = 0xFE01 ∧ t.wait = none ∧ (∀ q, t.getReg q = s.getReg q) ∧ t.cond = s.cond ∧ t.run = s.run ∧ t.cout = s.cout ∧
    (∀ a, a ≠ 0xFE00 → a ≠ 0xFE02 → t.peek a = s.peek a) ∧
    ((t.fault = none ∧ t.peek 0xFE00 = 0x0000 ∧ t.peek 0xFE02 = s.peek 0xFE02 ∧ t.cin = s.cin) ∨
     (∃ c rest, s.cin.bytes = c :: rest ∧ t.fault = some (.illegalOpcode 0x8000) ∧ t.peek 0xFE00 = 0x8000 ∧
      t.peek 0xFE02 = BitVec.ofNat 16 c.toNat ∧ t.cin = { s.cin with bytes := rest }))

/-- R67: a store to the next instruction's address changes what is executed next. -/
def Obligations.StoreIsSeenByTheNextFetch : Prop :=
  ∀ (s : State) (sr : RegId), s.run = .running → s.fault = none → s.wait = none → s.pc ≠ 0xFE00 →
    s.pc + 1 ≠ 0xFE00 →
    decode (s.peek s.pc) = .st sr 0 →
    ∃ t, step s = .next t ∧ t.pc = s.pc + 1 ∧ t.peek (s.pc + 1) = s.getReg sr ∧
      step t = exec (decode (s.getReg sr)) (t.setPc (s.pc + 2))

/-- R11: the signed reading of a sign-extended field is the signed reading of the field, and the rule's formula gives the
same word. -/
def Obligations.SignExtensionKeepsTheSignedReading : Prop :=
  ∀ (b : Nat) (f : BitVec b), b ∈ [5, 6, 9, 11] →
    (sext f).toInt = f.toInt ∧
    (sext f).toNat = if f.getLsbD (b - 1) then f.toNat + (2 ^ 16 - 2 ^ b) else f.toNat

/-- Two memories in canonical form that read alike at every address are equal data. -/
def Obligations.MemoriesThatReadAlikeAreEqual : Prop :=
  ∀ m m' : Memory, Memory.wf m → Memory.wf m' → (∀ a < 65536, Memory.read m a = Memory.read m' a) → m = m'

/-- R211, R237: an image that fits puts its word `k` at `origin + k` and leaves every other address as it was. -/
def Obligations.ImageWordsLieAtOriginPlusIndex : Prop :=
  ∀ (im : Image) (m : Memory), im.fits = true →
    (∀ k (h : k < im.words.length), Memory.read (im.load m) (im.origin.toNat + k) = im.words[k]) ∧
    (∀ a, a < im.origin.toNat ∨ im.origin.toNat + im.words.length ≤ a →
      Memory.read (im.load m) a = Memory.read m a) ∧
    (Memory.wf m → Memory.wf (im.load m))

/-- R232, R216: if the host's answers are never not-ready for ever, repeated polling with a byte pending finds it: some
poll leaves the ready status, that byte in KBDR, and the rest of the input. -/
def Obligations.FairPollingFindsThePendingByte : Prop :=
  ∀ (answers : Nat → Bool) (s : State) (c : Byte) (rest : List Byte), s.cin.bytes = c :: rest →
    (∀ n, ∃ m, n ≤ m ∧ answers m = true) →
    ∃ k, (pollTimes answers (k + 1) s).peek 0xFE00 = 0x8000 ∧
      (pollTimes answers (k + 1) s).peek 0xFE02 = BitVec.ofNat 16 c.toNat ∧
      (pollTimes answers (k + 1) s).cin.bytes = rest
end

