-- ==== Sys2Proof/Laws/Decode.lean ====
section
/-! SUPPORT. The encoding tables agree with their inverses (30_encoding.md R83, R89), and the register selectors with
their bits (R81). -/
namespace Sys2Proof

/-- The opcode table read at an opcode's number gives the opcode (R83). -/
@[simp] theorem opcodeAt_code (o : Opcode) : opcodeAt o.code = o := by cases o <;> decide

/-- No two opcodes have one number: the number of the opcode at `k` is `k` (R83 is a bijection). -/
@[simp] theorem code_opcodeAt (k : BitVec 4) : (opcodeAt k).code = k := by revert k; decide

/-- The opcode of a word whose top four bits are an opcode's number is that opcode. -/
theorem opcodeOf_eq {w : Word} {o : Opcode} (h : w.extractLsb' 12 4 = o.code) : opcodeOf w = o := by
  rw [opcodeOf, h, opcodeAt_code]

/-- The service of a service's vector is the service (R89). -/
@[simp] theorem serviceOf_vector (x : Service) : serviceOf x.vector = some x := by cases x <;> decide

/-- The vectors that select no service are the ones `vectorUnassigned` names (R89). -/
theorem serviceOf_eq_none (v : Byte) : serviceOf v = none ↔ vectorUnassigned v = true := by revert v; decide

/-- The register a selector's bits name. -/
@[simp] theorem regBits_toFin (r : RegId) : (regBits r).toFin = r := rfl

/-! ### Fields of a concatenation -/

/-- A field that lies in the high part of a concatenation. -/
theorem extract_append_high {n m : Nat} (x : BitVec n) (y : BitVec m) (lo len : Nat) (h : m ≤ lo) :
    (x ++ y).extractLsb' lo len = x.extractLsb' (lo - m) len := by
  ext i hi
  simp only [BitVec.getElem_extractLsb', BitVec.getLsbD_append]
  rw [if_neg (by omega), show lo + i - m = lo - m + i by omega]

/-- A field that lies in the low part of a concatenation. -/
theorem extract_append_low {n m : Nat} (x : BitVec n) (y : BitVec m) (lo len : Nat) (h : lo + len ≤ m) :
    (x ++ y).extractLsb' lo len = y.extractLsb' lo len := by
  ext i hi
  simp only [BitVec.getElem_extractLsb', BitVec.getLsbD_append]
  rw [if_pos (by omega)]

/-- The field that is the whole of a bit vector. -/
theorem extract_all {n : Nat} (x : BitVec n) : x.extractLsb' 0 n = x := by simp

/-! ### The opcode of each format (R80, R82) -/

theorem opcodeOf_formatOPR (o : Opcode) (a b c : RegId) : opcodeOf (formatOPR o a b c) = o :=
  opcodeOf_eq (by simp (disch := decide) only [formatOPR, extract_append_high, Nat.reduceSub, extract_all])
theorem opcodeOf_formatOPI (o : Opcode) (a b : RegId) (x : BitVec 5) : opcodeOf (formatOPI o a b x) = o :=
  opcodeOf_eq (by simp (disch := decide) only [formatOPI, extract_append_high, Nat.reduceSub, extract_all])
theorem opcodeOf_formatUNA (o : Opcode) (a b : RegId) : opcodeOf (formatUNA o a b) = o :=
  opcodeOf_eq (by simp (disch := decide) only [formatUNA, extract_append_high, Nat.reduceSub, extract_all])
theorem opcodeOf_formatBRF (o : Opcode) (n z p : Bool) (x : BitVec 9) : opcodeOf (formatBRF o n z p x) = o :=
  opcodeOf_eq (by simp (disch := decide) only [formatBRF, extract_append_high, Nat.reduceSub, extract_all])
theorem opcodeOf_formatJMPF (o : Opcode) (a : RegId) : opcodeOf (formatJMPF o a) = o :=
  opcodeOf_eq (by simp (disch := decide) only [formatJMPF, extract_append_high, Nat.reduceSub, extract_all])
theorem opcodeOf_formatJSRF (o : Opcode) (x : BitVec 11) : opcodeOf (formatJSRF o x) = o :=
  opcodeOf_eq (by simp (disch := decide) only [formatJSRF, extract_append_high, Nat.reduceSub, extract_all])
theorem opcodeOf_formatJSRRF (o : Opcode) (a : RegId) : opcodeOf (formatJSRRF o a) = o :=
  opcodeOf_eq (by simp (disch := decide) only [formatJSRRF, extract_append_high, Nat.reduceSub, extract_all])
theorem opcodeOf_formatPC9 (o : Opcode) (a : RegId) (x : BitVec 9) : opcodeOf (formatPC9 o a x) = o :=
  opcodeOf_eq (by simp (disch := decide) only [formatPC9, extract_append_high, Nat.reduceSub, extract_all])
theorem opcodeOf_formatBO6 (o : Opcode) (a b : RegId) (x : BitVec 6) : opcodeOf (formatBO6 o a b x) = o :=
  opcodeOf_eq (by simp (disch := decide) only [formatBO6, extract_append_high, Nat.reduceSub, extract_all])
theorem opcodeOf_formatTRP (o : Opcode) (v : Byte) : opcodeOf (formatTRP o v) = o :=
  opcodeOf_eq (by simp (disch := decide) only [formatTRP, extract_append_high, Nat.reduceSub, extract_all])
theorem opcodeOf_formatNONE (o : Opcode) (x : BitVec 12) : opcodeOf (formatNONE o x) = o :=
  opcodeOf_eq (by simp (disch := decide) only [formatNONE, extract_append_high, Nat.reduceSub, extract_all])

end Sys2Proof
end

