-- ==== Sys2Proof/Laws/State.lean ====
section
/-! SUPPORT. One lemma per field and update of State, true by rfl, so that no later proof unfolds a record update; and how
the two accessors `getReg` and `peek` see each update (41_operate.md R125: writing then reading returns the value). -/
namespace Sys2Proof.Machine

/-! ### `setReg` -/

@[simp] theorem State.setReg_regs (s : State) (r : RegId) (v : Word) : (s.setReg r v).regs = s.regs.set r v := rfl
@[simp] theorem State.setReg_pc (s : State) (r : RegId) (v : Word) : (s.setReg r v).pc = s.pc := rfl
@[simp] theorem State.setReg_cond (s : State) (r : RegId) (v : Word) : (s.setReg r v).cond = s.cond := rfl
@[simp] theorem State.setReg_mem (s : State) (r : RegId) (v : Word) : (s.setReg r v).mem = s.mem := rfl
@[simp] theorem State.setReg_run (s : State) (r : RegId) (v : Word) : (s.setReg r v).run = s.run := rfl
@[simp] theorem State.setReg_fault (s : State) (r : RegId) (v : Word) : (s.setReg r v).fault = s.fault := rfl
@[simp] theorem State.setReg_cin (s : State) (r : RegId) (v : Word) : (s.setReg r v).cin = s.cin := rfl
@[simp] theorem State.setReg_cout (s : State) (r : RegId) (v : Word) : (s.setReg r v).cout = s.cout := rfl
@[simp] theorem State.setReg_polls (s : State) (r : RegId) (v : Word) : (s.setReg r v).polls = s.polls := rfl
@[simp] theorem State.setReg_wait (s : State) (r : RegId) (v : Word) : (s.setReg r v).wait = s.wait := rfl

@[simp] theorem State.setReg_peek (s : State) (r : RegId) (v : Word) (x : Word) : State.peek (s.setReg r v) x = s.peek x := rfl

/-! ### `setPc` -/

@[simp] theorem State.setPc_regs (s : State) (v : Word) : (s.setPc v).regs = s.regs := rfl
@[simp] theorem State.setPc_pc (s : State) (v : Word) : (s.setPc v).pc = v := rfl
@[simp] theorem State.setPc_cond (s : State) (v : Word) : (s.setPc v).cond = s.cond := rfl
@[simp] theorem State.setPc_mem (s : State) (v : Word) : (s.setPc v).mem = s.mem := rfl
@[simp] theorem State.setPc_run (s : State) (v : Word) : (s.setPc v).run = s.run := rfl
@[simp] theorem State.setPc_fault (s : State) (v : Word) : (s.setPc v).fault = s.fault := rfl
@[simp] theorem State.setPc_cin (s : State) (v : Word) : (s.setPc v).cin = s.cin := rfl
@[simp] theorem State.setPc_cout (s : State) (v : Word) : (s.setPc v).cout = s.cout := rfl
@[simp] theorem State.setPc_polls (s : State) (v : Word) : (s.setPc v).polls = s.polls := rfl
@[simp] theorem State.setPc_wait (s : State) (v : Word) : (s.setPc v).wait = s.wait := rfl

@[simp] theorem State.setPc_getReg (s : State) (v : Word) (q : RegId) : State.getReg (s.setPc v) q = s.getReg q := rfl
@[simp] theorem State.setPc_peek (s : State) (v : Word) (x : Word) : State.peek (s.setPc v) x = s.peek x := rfl

/-! ### `setCond` -/

@[simp] theorem State.setCond_regs (s : State) (v : Word) : (s.setCond v).regs = s.regs := rfl
@[simp] theorem State.setCond_pc (s : State) (v : Word) : (s.setCond v).pc = s.pc := rfl
@[simp] theorem State.setCond_cond (s : State) (v : Word) : (s.setCond v).cond = v := rfl
@[simp] theorem State.setCond_mem (s : State) (v : Word) : (s.setCond v).mem = s.mem := rfl
@[simp] theorem State.setCond_run (s : State) (v : Word) : (s.setCond v).run = s.run := rfl
@[simp] theorem State.setCond_fault (s : State) (v : Word) : (s.setCond v).fault = s.fault := rfl
@[simp] theorem State.setCond_cin (s : State) (v : Word) : (s.setCond v).cin = s.cin := rfl
@[simp] theorem State.setCond_cout (s : State) (v : Word) : (s.setCond v).cout = s.cout := rfl
@[simp] theorem State.setCond_polls (s : State) (v : Word) : (s.setCond v).polls = s.polls := rfl
@[simp] theorem State.setCond_wait (s : State) (v : Word) : (s.setCond v).wait = s.wait := rfl

@[simp] theorem State.setCond_getReg (s : State) (v : Word) (q : RegId) : State.getReg (s.setCond v) q = s.getReg q := rfl
@[simp] theorem State.setCond_peek (s : State) (v : Word) (x : Word) : State.peek (s.setCond v) x = s.peek x := rfl

/-! ### `halt` -/

@[simp] theorem State.halt_regs (s : State) : s.halt.regs = s.regs := rfl
@[simp] theorem State.halt_pc (s : State) : s.halt.pc = s.pc := rfl
@[simp] theorem State.halt_cond (s : State) : s.halt.cond = s.cond := rfl
@[simp] theorem State.halt_mem (s : State) : s.halt.mem = s.mem := rfl
@[simp] theorem State.halt_run (s : State) : s.halt.run = .halted := rfl
@[simp] theorem State.halt_fault (s : State) : s.halt.fault = s.fault := rfl
@[simp] theorem State.halt_cin (s : State) : s.halt.cin = s.cin := rfl
@[simp] theorem State.halt_cout (s : State) : s.halt.cout = s.cout := rfl
@[simp] theorem State.halt_polls (s : State) : s.halt.polls = s.polls := rfl
@[simp] theorem State.halt_wait (s : State) : s.halt.wait = s.wait := rfl

@[simp] theorem State.halt_getReg (s : State) (q : RegId) : State.getReg s.halt q = s.getReg q := rfl
@[simp] theorem State.halt_peek (s : State) (x : Word) : State.peek s.halt x = s.peek x := rfl

/-! ### `poke` -/

@[simp] theorem State.poke_regs (s : State) (a v : Word) : (s.poke a v).regs = s.regs := rfl
@[simp] theorem State.poke_pc (s : State) (a v : Word) : (s.poke a v).pc = s.pc := rfl
@[simp] theorem State.poke_cond (s : State) (a v : Word) : (s.poke a v).cond = s.cond := rfl
@[simp] theorem State.poke_mem (s : State) (a v : Word) : (s.poke a v).mem = Memory.write s.mem a.toNat v := rfl
@[simp] theorem State.poke_run (s : State) (a v : Word) : (s.poke a v).run = s.run := rfl
@[simp] theorem State.poke_fault (s : State) (a v : Word) : (s.poke a v).fault = s.fault := rfl
@[simp] theorem State.poke_cin (s : State) (a v : Word) : (s.poke a v).cin = s.cin := rfl
@[simp] theorem State.poke_cout (s : State) (a v : Word) : (s.poke a v).cout = s.cout := rfl
@[simp] theorem State.poke_polls (s : State) (a v : Word) : (s.poke a v).polls = s.polls := rfl
@[simp] theorem State.poke_wait (s : State) (a v : Word) : (s.poke a v).wait = s.wait := rfl

@[simp] theorem State.poke_getReg (s : State) (a v : Word) (q : RegId) : State.getReg (s.poke a v) q = s.getReg q := rfl

/-! ### `setCin` -/

@[simp] theorem State.setCin_regs (s : State) (c : ConsoleIn) : (s.setCin c).regs = s.regs := rfl
@[simp] theorem State.setCin_pc (s : State) (c : ConsoleIn) : (s.setCin c).pc = s.pc := rfl
@[simp] theorem State.setCin_cond (s : State) (c : ConsoleIn) : (s.setCin c).cond = s.cond := rfl
@[simp] theorem State.setCin_mem (s : State) (c : ConsoleIn) : (s.setCin c).mem = s.mem := rfl
@[simp] theorem State.setCin_run (s : State) (c : ConsoleIn) : (s.setCin c).run = s.run := rfl
@[simp] theorem State.setCin_fault (s : State) (c : ConsoleIn) : (s.setCin c).fault = s.fault := rfl
@[simp] theorem State.setCin_cin (s : State) (c : ConsoleIn) : (s.setCin c).cin = c := rfl
@[simp] theorem State.setCin_cout (s : State) (c : ConsoleIn) : (s.setCin c).cout = s.cout := rfl
@[simp] theorem State.setCin_polls (s : State) (c : ConsoleIn) : (s.setCin c).polls = s.polls := rfl
@[simp] theorem State.setCin_wait (s : State) (c : ConsoleIn) : (s.setCin c).wait = s.wait := rfl

@[simp] theorem State.setCin_getReg (s : State) (c : ConsoleIn) (q : RegId) : State.getReg (s.setCin c) q = s.getReg q := rfl
@[simp] theorem State.setCin_peek (s : State) (c : ConsoleIn) (x : Word) : State.peek (s.setCin c) x = s.peek x := rfl

/-! ### `setWait` -/

@[simp] theorem State.setWait_regs (s : State) (w : Option Wait) : (s.setWait w).regs = s.regs := rfl
@[simp] theorem State.setWait_pc (s : State) (w : Option Wait) : (s.setWait w).pc = s.pc := rfl
@[simp] theorem State.setWait_cond (s : State) (w : Option Wait) : (s.setWait w).cond = s.cond := rfl
@[simp] theorem State.setWait_mem (s : State) (w : Option Wait) : (s.setWait w).mem = s.mem := rfl
@[simp] theorem State.setWait_run (s : State) (w : Option Wait) : (s.setWait w).run = s.run := rfl
@[simp] theorem State.setWait_fault (s : State) (w : Option Wait) : (s.setWait w).fault = s.fault := rfl
@[simp] theorem State.setWait_cin (s : State) (w : Option Wait) : (s.setWait w).cin = s.cin := rfl
@[simp] theorem State.setWait_cout (s : State) (w : Option Wait) : (s.setWait w).cout = s.cout := rfl
@[simp] theorem State.setWait_polls (s : State) (w : Option Wait) : (s.setWait w).polls = s.polls := rfl
@[simp] theorem State.setWait_wait (s : State) (w : Option Wait) : (s.setWait w).wait = w := rfl

@[simp] theorem State.setWait_getReg (s : State) (w : Option Wait) (q : RegId) : State.getReg (s.setWait w) q = s.getReg q := rfl
@[simp] theorem State.setWait_peek (s : State) (w : Option Wait) (x : Word) : State.peek (s.setWait w) x = s.peek x := rfl

/-! ### `out` -/

@[simp] theorem State.out_regs (s : State) (bs : List Byte) : (s.out bs).regs = s.regs := rfl
@[simp] theorem State.out_pc (s : State) (bs : List Byte) : (s.out bs).pc = s.pc := rfl
@[simp] theorem State.out_cond (s : State) (bs : List Byte) : (s.out bs).cond = s.cond := rfl
@[simp] theorem State.out_mem (s : State) (bs : List Byte) : (s.out bs).mem = s.mem := rfl
@[simp] theorem State.out_run (s : State) (bs : List Byte) : (s.out bs).run = s.run := rfl
@[simp] theorem State.out_fault (s : State) (bs : List Byte) : (s.out bs).fault = s.fault := rfl
@[simp] theorem State.out_cin (s : State) (bs : List Byte) : (s.out bs).cin = s.cin := rfl
@[simp] theorem State.out_cout (s : State) (bs : List Byte) : (s.out bs).cout = s.cout ++ bs := rfl
@[simp] theorem State.out_polls (s : State) (bs : List Byte) : (s.out bs).polls = s.polls := rfl
@[simp] theorem State.out_wait (s : State) (bs : List Byte) : (s.out bs).wait = s.wait := rfl

@[simp] theorem State.out_getReg (s : State) (bs : List Byte) (q : RegId) : State.getReg (s.out bs) q = s.getReg q := rfl
@[simp] theorem State.out_peek (s : State) (bs : List Byte) (x : Word) : State.peek (s.out bs) x = s.peek x := rfl

/-! ### `raise` -/

@[simp] theorem raise_regs (s : State) (r : FaultRecord) : (raise r s).regs = s.regs := rfl
@[simp] theorem raise_pc (s : State) (r : FaultRecord) : (raise r s).pc = s.pc := rfl
@[simp] theorem raise_cond (s : State) (r : FaultRecord) : (raise r s).cond = s.cond := rfl
@[simp] theorem raise_mem (s : State) (r : FaultRecord) : (raise r s).mem = s.mem := rfl
@[simp] theorem raise_run (s : State) (r : FaultRecord) : (raise r s).run = s.run := rfl
@[simp] theorem raise_fault (s : State) (r : FaultRecord) : (raise r s).fault = some r := rfl
@[simp] theorem raise_cin (s : State) (r : FaultRecord) : (raise r s).cin = s.cin := rfl
@[simp] theorem raise_cout (s : State) (r : FaultRecord) : (raise r s).cout = s.cout := rfl
@[simp] theorem raise_polls (s : State) (r : FaultRecord) : (raise r s).polls = s.polls := rfl
@[simp] theorem raise_wait (s : State) (r : FaultRecord) : (raise r s).wait = s.wait := rfl

@[simp] theorem raise_getReg (s : State) (r : FaultRecord) (q : RegId) : State.getReg (raise r s) q = s.getReg q := rfl
@[simp] theorem raise_peek (s : State) (r : FaultRecord) (x : Word) : State.peek (raise r s) x = s.peek x := rfl

/-! ### Reading a register after a write -/

@[simp] theorem State.setReg_getReg (s : State) (r : RegId) (v : Word) (q : RegId) :
    (s.setReg r v).getReg q = if q = r then v else s.getReg q := by
  simp only [State.getReg, State.setReg, Fin.getElem_fin, Vector.getElem_set, Fin.ext_iff, eq_comm]

/-! ### Updates made of others -/

@[simp] theorem State.outByte_eq (s : State) (c : Byte) : s.outByte c = s.out [c] := rfl
@[simp] theorem State.flush_eq (s : State) : s.flush = s := rfl
@[simp] theorem trapEntry_eq (s : State) : trapEntry s = s.setReg 7 s.pc := rfl
@[simp] theorem setcc_eq (v : Word) (s : State) : setcc v s = s.setCond (condOf v) := rfl
@[simp] theorem writeDest_eq (dr : RegId) (v : Word) (s : State) :
    writeDest dr v s = (s.setReg dr v).setCond (condOf v) := rfl
@[simp] theorem memWrite_eq (a v : Word) (s : State) : memWrite a v s = s.poke a v := rfl

@[simp] theorem State.out_nil (s : State) : s.out [] = s := by simp [State.out]
@[simp] theorem State.out_out (s : State) (bs cs : List Byte) : (s.out bs).out cs = s.out (bs ++ cs) := by
  simp [State.out]

/-- Writing bytes one by one is writing their list (R234). -/
theorem State.out_foldl (s : State) (bs : List Byte) : bs.foldl (fun t b => t.outByte b) s = s.out bs := by
  induction bs generalizing s with
  | nil => simp [State.out]
  | cons b rest ih => rw [List.foldl_cons, ih]; simp [State.out, State.outByte]

end Sys2Proof.Machine
end

