-- ==== Sys2Proof/Laws/Memory.lean ====
section
/-! SUPPORT. The laws of the memory array (20_memory.md R50, R56, R64): a read sees the last write to its address and no
other, and every write keeps the canonical form. -/
namespace Sys2Proof.Machine

@[simp] theorem Memory.read_nil (a : Nat) : Memory.read [] a = Memory.unlisted := rfl

theorem Memory.read_cons (k : Nat) (w : Word) (m : Memory) (a : Nat) :
    Memory.read ((k, w) :: m) a = if k = a then w else Memory.read m a := rfl

theorem Memory.read_erase (m : Memory) (a b : Nat) :
    Memory.read (Memory.erase m a) b = if b = a then Memory.unlisted else Memory.read m b := by
  induction m with
  | nil => simp [Memory.erase]
  | cons c rest ih =>
    obtain ⟨k, w⟩ := c
    simp only [Memory.erase, List.filter_cons, decide_eq_true_eq] at ih ⊢
    by_cases hk : k = a
    · subst hk
      simp only [ne_eq, not_true_eq_false, if_false, ih, Memory.read_cons]
      by_cases hb : b = k
      · simp [hb]
      · simp [hb, Ne.symm hb]
    · simp only [ne_eq, hk, not_false_eq_true, if_true, Memory.read_cons, ih]
      by_cases hb : k = b
      · subst hb; simp [hk]
      · simp [hb]

theorem Memory.read_insert (m : Memory) (a : Nat) (v : Word) (b : Nat) :
    Memory.read (Memory.insert m a v) b = if b = a then v else Memory.read m b := by
  induction m with
  | nil => simp [Memory.insert, Memory.read_cons, eq_comm]
  | cons c rest ih =>
    obtain ⟨k, w⟩ := c
    unfold Memory.insert
    split
    · simp [Memory.read_cons, eq_comm]
    · split
      · rename_i _ hk
        subst hk
        by_cases hb : b = k
        · simp [Memory.read_cons, hb]
        · simp [Memory.read_cons, hb, Ne.symm hb]
      · rename_i _ hk
        by_cases hb : k = b
        · subst hb; simp [Memory.read_cons, hk]
        · simp [Memory.read_cons, hb, ih]

/-- A read after a write: the value written at that address, what was there at every other. -/
theorem Memory.read_write (m : Memory) (a : Nat) (v : Word) (b : Nat) :
    Memory.read (Memory.write m a v) b = if b = a then v else Memory.read m b := by
  unfold Memory.write
  split
  · rename_i hv; rw [Memory.read_erase, hv]
  · rw [Memory.read_insert]

/-- How `peek` sees a `poke`. -/
@[simp] theorem State.poke_peek (s : State) (a v b : Word) :
    (s.poke a v).peek b = if b = a then v else s.peek b := by
  simp only [State.peek, State.poke, Memory.read_write, BitVec.toNat_inj]

/-- The entries of a memory into which one entry has been put. -/
theorem Memory.mem_insert {m : Memory} {a : Nat} {v : Word} {c : Cell} (h : c ∈ Memory.insert m a v) :
    c = (a, v) ∨ c ∈ m := by
  induction m with
  | nil => simpa [Memory.insert] using h
  | cons d rest ih =>
    obtain ⟨k, w⟩ := d
    unfold Memory.insert at h
    split at h
    · simpa using h
    · split at h
      · rcases List.mem_cons.mp h with h | h
        · exact .inl h
        · exact .inr (List.mem_cons_of_mem _ h)
      · rcases List.mem_cons.mp h with h | h
        · exact .inr (h ▸ List.mem_cons_self)
        · exact (ih h).imp_right (List.mem_cons_of_mem _)

/-- Putting an entry in its place keeps the addresses strictly rising. -/
theorem Memory.pairwise_insert {m : Memory} (a : Nat) (v : Word) (h : m.Pairwise (fun c d => c.1 < d.1)) :
    (Memory.insert m a v).Pairwise (fun c d => c.1 < d.1) := by
  induction m with
  | nil => simp [Memory.insert]
  | cons d rest ih =>
    obtain ⟨k, w⟩ := d
    obtain ⟨hk, hr⟩ := List.pairwise_cons.mp h
    unfold Memory.insert
    split
    · rename_i hak
      refine List.pairwise_cons.mpr ⟨fun c hc => ?_, h⟩
      rcases List.mem_cons.mp hc with rfl | hc
      · exact hak
      · exact Nat.lt_trans hak (hk c hc)
    · split
      · rename_i _ hka
        subst hka
        exact List.pairwise_cons.mpr ⟨hk, hr⟩
      · refine List.pairwise_cons.mpr ⟨fun c hc => ?_, ih hr⟩
        rcases Memory.mem_insert hc with rfl | hc
        · show k < a; omega
        · exact hk c hc

/-- What the canonical form says. -/
theorem Memory.wf_iff (m : Memory) : Memory.wf m = true ↔
    m.Pairwise (fun c d => c.1 < d.1) ∧ ∀ c ∈ m, c.1 < 65536 ∧ c.2 ≠ Memory.unlisted := decide_eq_true_iff

/-- Every write inside the address space keeps the canonical form. -/
theorem Memory.wf_write {m : Memory} {a : Nat} (v : Word) (h : Memory.wf m) (ha : a < 65536) :
    Memory.wf (Memory.write m a v) := by
  rw [Memory.wf_iff] at h ⊢
  unfold Memory.write
  split
  · refine ⟨h.1.sublist List.filter_sublist, fun c hc => h.2 c (List.mem_filter.mp hc).1⟩
  · rename_i hv
    refine ⟨Memory.pairwise_insert a v h.1, fun c hc => ?_⟩
    rcases Memory.mem_insert hc with rfl | hc
    · exact ⟨ha, hv⟩
    · exact h.2 c hc

theorem State.wf_poke {s : State} (a v : Word) (h : Memory.wf s.mem) : Memory.wf (s.poke a v).mem :=
  Memory.wf_write v h a.isLt

/-- Reset memory is in canonical form. -/
theorem reset_memory_wf : Memory.wf State.reset.mem := by decide

end Sys2Proof.Machine
end

