-- ==== Sys2Proof/Laws/Ops.lean ====
section
/-! SUPPORT. What the shared operations do, said once: the keyboard poll (20_memory.md R54, R55), `MemRead` (R53), the
fetch (40_cycle.md R111) and the console reads (80_host_interface.md R232, R233). -/
namespace Sys2Proof.Machine

/-- KBSR's address (R51). -/
theorem kbsr_eq : kbsr = 0xFE00 := rfl

/-- KBDR's address (R51). -/
theorem kbdr_eq : kbdr = 0xFE02 := rfl

/-- The poll that finds a byte (R54). -/
theorem kbdPoll_ready {s : State} {c : Byte} {rest : List Byte} (h : s.cin.bytes = c :: rest) :
    kbdPoll true s =
      ((({ s with polls := s.polls + 1 } : State).setCin { s.cin with bytes := rest }).poke kbsr 0x8000).poke kbdr
        (zext16 c) := by
  simp [kbdPoll, consolePoll, h]

/-- The poll that finds none (R55). -/
theorem kbdPoll_notReady {s : State} {arrived : Bool} (h : s.cin.bytes = [] ∨ arrived = false) :
    kbdPoll arrived s = ({ s with polls := s.polls + 1 } : State).poke kbsr 0x0000 := by
  unfold kbdPoll consolePoll
  rcases h with h | h
  · simp [h]
  · subst h; cases hb : s.cin.bytes <;> simp [hb]

/-- Every poll is one of the two. -/
theorem kbdPoll_cases (arrived : Bool) (s : State) :
    (∃ c rest, arrived = true ∧ s.cin.bytes = c :: rest) ∨ (s.cin.bytes = [] ∨ arrived = false) := by
  cases hb : s.cin.bytes <;> cases arrived <;> simp

/-! ### What a poll leaves alone -/

@[simp] theorem kbdPoll_regs (b : Bool) (s : State) : (kbdPoll b s).regs = s.regs := by
  unfold kbdPoll; dsimp only; split <;> rfl
@[simp] theorem kbdPoll_pc (b : Bool) (s : State) : (kbdPoll b s).pc = s.pc := by
  unfold kbdPoll; dsimp only; split <;> rfl
@[simp] theorem kbdPoll_cond (b : Bool) (s : State) : (kbdPoll b s).cond = s.cond := by
  unfold kbdPoll; dsimp only; split <;> rfl
@[simp] theorem kbdPoll_run (b : Bool) (s : State) : (kbdPoll b s).run = s.run := by
  unfold kbdPoll; dsimp only; split <;> rfl
@[simp] theorem kbdPoll_fault (b : Bool) (s : State) : (kbdPoll b s).fault = s.fault := by
  unfold kbdPoll; dsimp only; split <;> rfl
@[simp] theorem kbdPoll_wait (b : Bool) (s : State) : (kbdPoll b s).wait = s.wait := by
  unfold kbdPoll; dsimp only; split <;> rfl
@[simp] theorem kbdPoll_cout (b : Bool) (s : State) : (kbdPoll b s).cout = s.cout := by
  unfold kbdPoll; dsimp only; split <;> rfl
@[simp] theorem kbdPoll_polls (b : Bool) (s : State) : (kbdPoll b s).polls = s.polls + 1 := by
  unfold kbdPoll; dsimp only; split <;> rfl
@[simp] theorem kbdPoll_getReg (b : Bool) (s : State) (r : RegId) : (kbdPoll b s).getReg r = s.getReg r := by
  simp [State.getReg]

/-- A poll writes the two device slots and no other word. -/
theorem kbdPoll_peek {a : Word} (h1 : a ≠ kbsr) (h2 : a ≠ kbdr) (b : Bool) (s : State) :
    (kbdPoll b s).peek a = s.peek a := by
  unfold kbdPoll
  dsimp only
  split <;> simp [h1, h2] <;> rfl

theorem kbdPoll_wf (b : Bool) {s : State} (h : Memory.wf s.mem) : Memory.wf (kbdPoll b s).mem := by
  unfold kbdPoll
  dsimp only
  split
  · exact State.wf_poke _ _ (State.wf_poke _ _ h)
  · exact State.wf_poke _ _ h

/-- A poll consumes one byte from the front of the input or none; it never changes how the input ends. -/
theorem kbdPoll_cin (b : Bool) (s : State) :
    ∃ taken, s.cin.bytes = taken ++ (kbdPoll b s).cin.bytes ∧ (kbdPoll b s).cin.closes = s.cin.closes := by
  rcases kbdPoll_cases b s with ⟨c, rest, rfl, h⟩ | h
  · exact ⟨[c], by simp [kbdPoll_ready h, h], by simp [kbdPoll_ready h]⟩
  · exact ⟨[], by simp [kbdPoll_notReady h], by simp [kbdPoll_notReady h]⟩

/-- The status a poll leaves: ready with the byte in KBDR, or not ready with KBDR as it was (R54, R55). -/
theorem kbdPoll_status (b : Bool) (s : State) :
    (kbdPoll b s).peek kbsr = 0x8000 ∨ (kbdPoll b s).peek kbsr = 0x0000 := by
  rcases kbdPoll_cases b s with ⟨c, rest, rfl, h⟩ | h
  · left; simp [kbdPoll_ready h, kbsr, kbdr]
  · right; simp [kbdPoll_notReady h]

/-! ### `MemRead` -/

/-- A read of any address but KBSR is pure (R53). -/
@[simp] theorem memRead_pure {a : Word} (h : a ≠ kbsr) (s : State) : memRead a s = (s.peek a, s) := by
  simp [memRead, h]

/-- A read of KBSR polls and returns the status the poll produced (R53). -/
theorem memRead_kbsr (s : State) :
    memRead kbsr s = ((kbdPoll (Config.pollArrived s.polls) s).peek kbsr, kbdPoll (Config.pollArrived s.polls) s) := by
  simp [memRead]

/-- The word a read returns is the content of its address after the read. -/
theorem memRead_value (a : Word) (s : State) : (memRead a s).1 = (memRead a s).2.peek a := rfl

/-- The state after a read is the state before it, or the state after one poll. -/
theorem memRead_state (a : Word) (s : State) :
    (a ≠ kbsr ∧ (memRead a s).2 = s) ∨
    (a = kbsr ∧ (memRead a s).2 = kbdPoll (Config.pollArrived s.polls) s) := by
  by_cases h : a = kbsr
  · right; subst h; exact ⟨rfl, by rw [memRead_kbsr]⟩
  · left; exact ⟨h, by rw [memRead_pure h]⟩

@[simp] theorem memRead_regs (a : Word) (s : State) : (memRead a s).2.regs = s.regs := by
  rcases memRead_state a s with ⟨-, h⟩ | ⟨-, h⟩ <;> simp [h]
@[simp] theorem memRead_pc (a : Word) (s : State) : (memRead a s).2.pc = s.pc := by
  rcases memRead_state a s with ⟨-, h⟩ | ⟨-, h⟩ <;> simp [h]
@[simp] theorem memRead_cond (a : Word) (s : State) : (memRead a s).2.cond = s.cond := by
  rcases memRead_state a s with ⟨-, h⟩ | ⟨-, h⟩ <;> simp [h]
@[simp] theorem memRead_run (a : Word) (s : State) : (memRead a s).2.run = s.run := by
  rcases memRead_state a s with ⟨-, h⟩ | ⟨-, h⟩ <;> simp [h]
@[simp] theorem memRead_fault (a : Word) (s : State) : (memRead a s).2.fault = s.fault := by
  rcases memRead_state a s with ⟨-, h⟩ | ⟨-, h⟩ <;> simp [h]
@[simp] theorem memRead_cout (a : Word) (s : State) : (memRead a s).2.cout = s.cout := by
  rcases memRead_state a s with ⟨-, h⟩ | ⟨-, h⟩ <;> simp [h]
@[simp] theorem memRead_wait (a : Word) (s : State) : (memRead a s).2.wait = s.wait := by
  rcases memRead_state a s with ⟨-, h⟩ | ⟨-, h⟩ <;> simp [h]
@[simp] theorem memRead_getReg (a : Word) (s : State) (r : RegId) : (memRead a s).2.getReg r = s.getReg r := by
  simp [State.getReg]

theorem memRead_peek {a b : Word} (h1 : b ≠ kbsr) (h2 : b ≠ kbdr) (s : State) : (memRead a s).2.peek b = s.peek b := by
  rcases memRead_state a s with ⟨-, h⟩ | ⟨-, h⟩
  · rw [h]
  · rw [h, kbdPoll_peek h1 h2]

theorem memRead_wf (a : Word) {s : State} (h : Memory.wf s.mem) : Memory.wf (memRead a s).2.mem := by
  rcases memRead_state a s with ⟨-, e⟩ | ⟨-, e⟩ <;> rw [e]
  · exact h
  · exact kbdPoll_wf _ h

theorem memRead_cin (a : Word) (s : State) :
    ∃ taken, s.cin.bytes = taken ++ (memRead a s).2.cin.bytes ∧ (memRead a s).2.cin.closes = s.cin.closes := by
  rcases memRead_state a s with ⟨-, h⟩ | ⟨-, h⟩ <;> rw [h]
  · exact ⟨[], by simp, rfl⟩
  · exact kbdPoll_cin _ s

/-! ### The fetch -/

/-- The fetch from any address but KBSR (R111). -/
theorem fetch_pure {s : State} (h : s.pc ≠ kbsr) : fetch s = (s.peek s.pc, s.setPc (s.pc + 1)) := by
  simp [fetch, memRead_pure h]

@[simp] theorem fetch_pc (s : State) : (fetch s).2.pc = s.pc + 1 := by simp [fetch]
@[simp] theorem fetch_regs (s : State) : (fetch s).2.regs = s.regs := by simp [fetch]
@[simp] theorem fetch_cond (s : State) : (fetch s).2.cond = s.cond := by simp [fetch]
@[simp] theorem fetch_run (s : State) : (fetch s).2.run = s.run := by simp [fetch]
@[simp] theorem fetch_fault (s : State) : (fetch s).2.fault = s.fault := by simp [fetch]
@[simp] theorem fetch_cout (s : State) : (fetch s).2.cout = s.cout := by simp [fetch]
@[simp] theorem fetch_wait (s : State) : (fetch s).2.wait = s.wait := by simp [fetch]
@[simp] theorem fetch_getReg (s : State) (r : RegId) : (fetch s).2.getReg r = s.getReg r := by simp [fetch]

theorem fetch_wf {s : State} (h : Memory.wf s.mem) : Memory.wf (fetch s).2.mem := by
  simpa [fetch] using memRead_wf s.pc h

/-! ### `ConsoleGet` -/

/-- A pending byte is delivered (R233). -/
theorem consoleGet_byte {cin : ConsoleIn} {c : Byte} {rest : List Byte} (h : cin.bytes = c :: rest) :
    consoleGet cin = .byte c { cin with bytes := rest } := by simp [consoleGet, h]

/-- The closed stream is reported (R233). -/
theorem consoleGet_closed {cin : ConsoleIn} (h : cin.bytes = []) (closed : cin.closes = true) :
    consoleGet cin = .closed := by simp [consoleGet, h, closed]

/-- An open and empty input does not return (R233). -/
theorem consoleGet_waits {cin : ConsoleIn} (h : cin.bytes = []) (isOpen : cin.closes = false) :
    consoleGet cin = .waits := by simp [consoleGet, h, isOpen]

/-- The three answers of the blocking read (R233). -/
theorem consoleGet_cases (cin : ConsoleIn) :
    (∃ c rest, cin.bytes = c :: rest ∧ consoleGet cin = .byte c { cin with bytes := rest }) ∨
    (cin.bytes = [] ∧ cin.closes = true ∧ consoleGet cin = .closed) ∨
    (cin.bytes = [] ∧ cin.closes = false ∧ consoleGet cin = .waits) := by
  unfold consoleGet
  cases hb : cin.bytes <;> cases hc : cin.closes <;> simp

end Sys2Proof.Machine
end

