-- ==== Sys2Proof/Laws/Input.lean ====
section
/-! SUPPORT. GETC and IN at their read of a byte (44_trap.md R161, R164; 80_host_interface.md R233): what each answer of
`ConsoleGet` makes of the instruction, when it comes to the read and when it goes on from a wait. -/
namespace Sys2Proof.Machine

/-- With a byte pending the instruction ends with it. -/
theorem awaitByte_byte (w : Wait) {s : State} {c : Byte} {rest : List Byte} (h : s.cin.bytes = c :: rest) :
    awaitByte w s = w.finish c (s.setCin { s.cin with bytes := rest }) := by simp [awaitByte, consoleGet_byte h]

/-- At the end of a closed input the fault is raised (R183). -/
theorem awaitByte_closed (w : Wait) {s : State} (h : s.cin.bytes = []) (closed : s.cin.closes = true) :
    awaitByte w s = raise .consoleInputClosed s := by simp [awaitByte, consoleGet_closed h closed]

/-- On an open and empty input the wait begins. -/
theorem awaitByte_waits (w : Wait) {s : State} (h : s.cin.bytes = []) (isOpen : s.cin.closes = false) :
    awaitByte w s = s.setWait (some w) := by simp [awaitByte, consoleGet_waits h isOpen]

/-- Everything that the read of a byte can come to. -/
theorem awaitByte_cases (w : Wait) (s : State) :
    (∃ c rest, s.cin.bytes = c :: rest ∧ awaitByte w s = w.finish c (s.setCin { s.cin with bytes := rest })) ∨
    (s.cin.bytes = [] ∧ s.cin.closes = true ∧ awaitByte w s = raise .consoleInputClosed s) ∨
    (s.cin.bytes = [] ∧ s.cin.closes = false ∧ awaitByte w s = s.setWait (some w)) := by
  rcases consoleGet_cases s.cin with ⟨c, rest, h, -⟩ | ⟨h, k, -⟩ | ⟨h, k, -⟩
  · exact .inl ⟨c, rest, h, awaitByte_byte w h⟩
  · exact .inr (.inl ⟨h, k, awaitByte_closed w h k⟩)
  · exact .inr (.inr ⟨h, k, awaitByte_waits w h k⟩)

/-- Everything that going on from a wait can come to. -/
theorem resume_cases (w : Wait) (s : State) :
    (∃ c rest, s.cin.bytes = c :: rest ∧
      resume w s = .next (w.finish c ((s.setWait none).setCin { s.cin with bytes := rest }))) ∨
    (s.cin.bytes = [] ∧ s.cin.closes = true ∧
      resume w s = .next (raise .consoleInputClosed (s.setWait none))) ∨
    (s.cin.bytes = [] ∧ s.cin.closes = false ∧ resume w s = .fault .heldForInput) := by
  rcases consoleGet_cases s.cin with ⟨c, rest, h, e⟩ | ⟨h, k, e⟩ | ⟨h, k, e⟩
  · exact .inl ⟨c, rest, h, by simp [resume, awaitByte, e]⟩
  · exact .inr (.inl ⟨h, k, by simp [resume, awaitByte, e]⟩)
  · exact .inr (.inr ⟨h, k, by simp [resume, e]⟩)

/-- GETC stores the byte and sets the flags (R161). -/
@[simp] theorem Wait.finish_getc (c : Byte) (s : State) :
    Wait.getc.finish c s = (s.setReg 0 (zext16 c)).setCond (condOf (zext16 c)) := rfl

/-- IN echoes it first (R164, D26). -/
@[simp] theorem Wait.finish_inEcho (c : Byte) (s : State) :
    Wait.inEcho.finish c s = ((s.out [c]).setReg 0 (zext16 c)).setCond (condOf (zext16 c)) := rfl

/-- A delivery to an open input adds bytes at its end (R195, R233). -/
theorem State.deliver_open {s : State} (isOpen : s.cin.closes = false) (bytes : List Byte) (closes : Bool) :
    s.deliver bytes closes = s.setCin { bytes := s.cin.bytes ++ bytes, closes } := by simp [State.deliver, isOpen]

/-- Nothing is delivered to a closed input. -/
theorem State.deliver_closed {s : State} (closed : s.cin.closes = true) (bytes : List Byte) (closes : Bool) :
    s.deliver bytes closes = s := by simp [State.deliver, closed]

end Sys2Proof.Machine
end

