-- ==== Sys2Proof/Laws/PerInstr.lean ====
section
/-! SUPPORT. Statements made of every instruction, one lemma per constructor. -/

/-- The opcode that spec/opcode_table.json gives the instruction's row. -/
def Sys2Proof.Laws.EncodedOpcode.rowOpcode (i : Sys2Proof.Instr) : Sys2Proof.Opcode :=
  match i with
  | .br _ _ _ _ => .br
  | .addReg _ _ _ | .addImm _ _ _ => .add
  | .ld _ _ => .ld
  | .st _ _ => .st
  | .jsr _ | .jsrr _ => .jsr
  | .andReg _ _ _ | .andImm _ _ _ => .and
  | .ldr _ _ _ => .ldr
  | .str _ _ _ => .str
  | .rti _ => .rti
  | .notReg _ _ => .not
  | .ldi _ _ => .ldi
  | .sti _ _ => .sti
  | .jmp _ => .jmp
  | .res _ => .res
  | .lea _ _ => .lea
  | .trapGetc | .trapOut | .trapPuts | .trapIn | .trapPutsp | .trapHalt | .trapUnassigned _ => .trap

/-- The word the encoder writes carries its row's opcode in bits 15:12 (30_encoding.md R80, R83). -/
def Sys2Proof.Laws.EncodedOpcode.Statement (i : Sys2Proof.Instr) : Prop :=
  Sys2Proof.opcodeOf (Sys2Proof.encode i) = Sys2Proof.Laws.EncodedOpcode.rowOpcode i

namespace Sys2Proof.Laws.EncodedOpcode

theorem br (n z p : Bool) (off9 : BitVec 9) : Statement (.br n z p off9) := opcodeOf_formatBRF _ n z p off9
theorem addReg (dr sr1 sr2 : RegId) : Statement (.addReg dr sr1 sr2) := opcodeOf_formatOPR _ dr sr1 sr2
theorem addImm (dr sr1 : RegId) (imm5 : BitVec 5) : Statement (.addImm dr sr1 imm5) := opcodeOf_formatOPI _ dr sr1 imm5
theorem ld (dr : RegId) (off9 : BitVec 9) : Statement (.ld dr off9) := opcodeOf_formatPC9 _ dr off9
theorem st (sr : RegId) (off9 : BitVec 9) : Statement (.st sr off9) := opcodeOf_formatPC9 _ sr off9
theorem jsr (off11 : BitVec 11) : Statement (.jsr off11) := opcodeOf_formatJSRF _ off11
theorem jsrr (base : RegId) : Statement (.jsrr base) := opcodeOf_formatJSRRF _ base
theorem andReg (dr sr1 sr2 : RegId) : Statement (.andReg dr sr1 sr2) := opcodeOf_formatOPR _ dr sr1 sr2
theorem andImm (dr sr1 : RegId) (imm5 : BitVec 5) : Statement (.andImm dr sr1 imm5) := opcodeOf_formatOPI _ dr sr1 imm5
theorem ldr (dr base : RegId) (off6 : BitVec 6) : Statement (.ldr dr base off6) := opcodeOf_formatBO6 _ dr base off6
theorem str (sr base : RegId) (off6 : BitVec 6) : Statement (.str sr base off6) := opcodeOf_formatBO6 _ sr base off6
theorem rti (low : BitVec 12) : Statement (.rti low) := opcodeOf_formatNONE _ low
theorem notReg (dr sr1 : RegId) : Statement (.notReg dr sr1) := opcodeOf_formatUNA _ dr sr1
theorem ldi (dr : RegId) (off9 : BitVec 9) : Statement (.ldi dr off9) := opcodeOf_formatPC9 _ dr off9
theorem sti (sr : RegId) (off9 : BitVec 9) : Statement (.sti sr off9) := opcodeOf_formatPC9 _ sr off9
theorem jmp (base : RegId) : Statement (.jmp base) := opcodeOf_formatJMPF _ base
theorem res (low : BitVec 12) : Statement (.res low) := opcodeOf_formatNONE _ low
theorem lea (dr : RegId) (off9 : BitVec 9) : Statement (.lea dr off9) := opcodeOf_formatPC9 _ dr off9
theorem trapGetc : Statement .trapGetc := opcodeOf_formatTRP _ Service.getc.vector
theorem trapOut : Statement .trapOut := opcodeOf_formatTRP _ Service.out.vector
theorem trapPuts : Statement .trapPuts := opcodeOf_formatTRP _ Service.puts.vector
theorem trapIn : Statement .trapIn := opcodeOf_formatTRP _ Service.inEcho.vector
theorem trapPutsp : Statement .trapPutsp := opcodeOf_formatTRP _ Service.putsp.vector
theorem trapHalt : Statement .trapHalt := opcodeOf_formatTRP _ Service.halt.vector
theorem trapUnassigned (vect : Byte) : Statement (.trapUnassigned vect) := opcodeOf_formatTRP _ vect

end Sys2Proof.Laws.EncodedOpcode
end

