-- ==== Sys2Proof/Laws/Step.lean ====
section
/-! SUPPORT. What a step is (40_cycle.md R110, R117): stopped, the rest of a GETC or IN in progress, or the dispatched
instruction on the state after the fetch; and that `withFetchWord` makes the next step run the instruction it is given. -/
namespace Sys2Proof.Machine

/-- The step of a machine that can step and fetches. -/
theorem step_of_canStep {s : State} (h : s.canStep) : step s = exec s.current (fetch s).2 := by
  simp [step, h.1, h.2.1, h.2.2, State.current]

/-- The step of a machine that waits. -/
theorem step_of_held {s : State} {w : Wait} (h : s.held w) : step s = resume w s := by
  simp [step, h.1, h.2.1, h.2.2]

@[simp] theorem State.current_of_held {s : State} {w : Wait} (h : s.held w) : s.current = w.instr := by
  simp [State.current, h.2.2]

@[simp] theorem State.entered_of_held {s : State} {w : Wait} (h : s.held w) : s.entered = s := by
  simp [State.entered, h.2.2]

theorem State.current_of_canStep {s : State} (h : s.canStep) : s.current = decode (fetch s).1 := by
  simp [State.current, h.2.2]

theorem State.entered_of_canStep {s : State} (h : s.canStep) : s.entered = (fetch s).2 := by
  simp [State.entered, h.2.2]

/-- A halted machine has no step. -/
theorem step_of_normalEnd {s : State} (h : s.normalEnd) : step s = .fault .halted := by
  simp [step, h.1, h.2]

/-- An aborted machine has no step. -/
theorem step_of_fault {s : State} {r : FaultRecord} (h : s.fault = some r) : step s = .fault (.aborted r) := by
  simp [step, h]

/-- Everything a step that answers a next state can be. -/
theorem step_next {s t : State} (h : step s = .next t) :
    (s.canStep ∧ exec s.current (fetch s).2 = .next t) ∨ ∃ w, s.held w ∧ resume w s = .next t := by
  unfold step at h
  split at h
  · simp at h
  · simp at h
  · rename_i hf hr hw
    exact .inr ⟨_, ⟨hr, hf, hw⟩, h⟩
  · rename_i hf hr hw
    exact .inl ⟨⟨hr, hf, hw⟩, by simpa [State.current, hw] using h⟩

/-- An invariant that holds of `s` and that every step keeps holds of every state a run from `s` reaches. -/
theorem Reaches.induct {P : State → Prop} {s u : State} (start : P s)
    (keeps : ∀ t t', P t → Machine.step t = .next t' → P t') (h : Reaches s u) : P u := by
  induction h with
  | here => exact start
  | step _ hs ih => exact keeps _ _ ih hs

/-- The instruction the host places is the one the next step runs. -/
theorem step_withFetchWord (s : State) (nbits w : Nat) :
    step (s.withFetchWord nbits w) =
      exec (decode (tableWord nbits w)) ((s.withFetchWord nbits w).setPc ((s.withFetchWord nbits w).pc + 1)) := by
  have hpc : (s.withFetchWord nbits w).pc ≠ kbsr := by
    simp only [State.withFetchWord, State.poke_pc]
    split
    · decide
    · assumption
  rw [step_of_canStep ⟨rfl, rfl, rfl⟩, State.current_of_canStep ⟨rfl, rfl, rfl⟩, fetch_pure hpc]
  simp [State.withFetchWord]

end Sys2Proof.Machine
end

