-- ==== Sys2Proof/Laws/Walk.lean ====
section
/-! SUPPORT. The string walk of PUTS and PUTSP (44_trap.md R163, R165): what it may change, and that it always ends.
A walk over memory with no terminator would never end, as R163 says; but every lap of memory reads 0xFE00 through
`MemRead`, which either answers not ready, a zero word, or consumes one byte of the finite input (R53 to R55, R231). -/
namespace Sys2Proof.Machine

/-- What reads and console output leave alone, and in which direction they move the rest: device slots, input, log. -/
structure Serviced (s t : State) : Prop where
  regs   : t.regs = s.regs
  pc     : t.pc = s.pc
  cond   : t.cond = s.cond
  run    : t.run = s.run
  fault  : t.fault = s.fault
  wait   : t.wait = s.wait
  peek   : ∀ a, a ≠ kbsr → a ≠ kbdr → t.peek a = s.peek a
  cin    : ∃ taken, s.cin.bytes = taken ++ t.cin.bytes
  closes : t.cin.closes = s.cin.closes
  cout   : ∃ written, t.cout = s.cout ++ written
  memWf  : Memory.wf s.mem → Memory.wf t.mem

theorem Serviced.refl (s : State) : Serviced s s where
  regs := rfl
  pc := rfl
  cond := rfl
  run := rfl
  fault := rfl
  wait := rfl
  peek := fun _ _ _ => rfl
  cin := ⟨[], rfl⟩
  closes := rfl
  cout := ⟨[], by simp⟩
  memWf := id

theorem Serviced.trans {s t u : State} (h : Serviced s t) (k : Serviced t u) : Serviced s u where
  regs := k.regs.trans h.regs
  pc := k.pc.trans h.pc
  cond := k.cond.trans h.cond
  run := k.run.trans h.run
  fault := k.fault.trans h.fault
  wait := k.wait.trans h.wait
  peek := fun a h1 h2 => (k.peek a h1 h2).trans (h.peek a h1 h2)
  cin := by
    obtain ⟨x, hx⟩ := h.cin
    obtain ⟨y, hy⟩ := k.cin
    exact ⟨x ++ y, by rw [hx, hy, List.append_assoc]⟩
  closes := k.closes.trans h.closes
  cout := by
    obtain ⟨x, hx⟩ := h.cout
    obtain ⟨y, hy⟩ := k.cout
    exact ⟨x ++ y, by rw [hy, hx, List.append_assoc]⟩
  memWf := k.memWf ∘ h.memWf

theorem Serviced.memRead (a : Word) (s : State) : Serviced s (memRead a s).2 where
  regs := by simp
  pc := by simp
  cond := by simp
  run := by simp
  fault := by simp
  wait := by simp
  peek := fun _ h1 h2 => memRead_peek h1 h2 s
  cin := (memRead_cin a s).imp fun _ h => h.1
  closes := (memRead_cin a s).elim fun _ h => h.2
  cout := ⟨[], by simp⟩
  memWf := memRead_wf a

theorem Serviced.out (s : State) (bs : List Byte) : Serviced s (s.out bs) :=
  { Serviced.refl s with cout := ⟨bs, rfl⟩ }

/-- Everything a walk may change. -/
theorem stringWalk_serviced {word : Word → List Byte × Bool} {fuel : Nat} {a : Word} {s t : State}
    (h : stringWalk word fuel a s = some t) : Serviced s t := by
  induction fuel generalizing a s with
  | zero => simp [stringWalk] at h
  | succ fuel ih =>
    have here := (Serviced.memRead a s).trans (Serviced.out _ (word (memRead a s).1).1)
    simp only [stringWalk] at h
    split at h
    · exact here.trans (ih h)
    · exact Option.some.inj h ▸ here

/-- A walk ends when its fuel covers the way to KBSR and one lap for each pending input byte. -/
theorem stringWalk_ends {word : Word → List Byte × Bool} (stops : (word 0x0000).2 = false) (fuel : Nat) (a : Word)
    (s : State) (enough : (kbsr - a).toNat + 65536 * s.cin.bytes.length < fuel) :
    ∃ t, stringWalk word fuel a s = some t := by
  induction fuel generalizing a s with
  | zero => omega
  | succ fuel ih =>
    simp only [stringWalk]
    split
    · rename_i goesOn
      refine ih _ _ ?_
      simp only [State.out_cin]
      by_cases ha : a = kbsr
      · subst ha
        rw [memRead_kbsr] at goesOn ⊢
        rcases kbdPoll_cases (Config.pollArrived s.polls) s with ⟨c, rest, arrived, pending⟩ | quiet
        · have lap : (kbsr - (kbsr + 1)).toNat = 65535 := by decide
          rw [arrived, kbdPoll_ready pending]
          simp only [State.poke_cin, State.setCin_cin, lap]
          rw [pending, List.length_cons] at enough
          omega
        · simp [kbdPoll_notReady quiet] at goesOn
          exact absurd (stops.symm.trans goesOn) (by decide)
      · rw [memRead_pure ha]
        have closer : (kbsr - (a + 1)).toNat < (kbsr - a).toNat := by
          have : kbsr - a ≠ 0 := fun h => ha (by bv_omega)
          bv_omega
        show _ + 65536 * s.cin.bytes.length < _
        omega
    · exact ⟨_, rfl⟩

/-- A zero word ends PUTS. -/
theorem putsWord_stops : (putsWord 0x0000).2 = false := by decide

/-- A zero word ends PUTSP. -/
theorem putspWord_stops : (putspWord 0x0000).2 = false := by decide

/-- The walk of a service that a zero word ends always ends. -/
theorem putString_next {word : Word → List Byte × Bool} (stops : (word 0x0000).2 = false) (s : State) :
    ∃ t, putString word s = .next t ∧ Serviced s t := by
  obtain ⟨t, h⟩ := stringWalk_ends stops (walkBound s) (s.getReg 0) s (by unfold walkBound; bv_omega)
  exact ⟨t, by simp [putString, h], stringWalk_serviced h⟩

end Sys2Proof.Machine
end

