-- ==== Sys2Proof/Tests/Slice0.lean ====
section
/-! SUPPORT. The model's own tests. Expected values are those of spec/95_test_vectors.md, named by its labels, or are worked
out by hand from the rule cited. The second half shows, for each statement with hypotheses, a state and operands that
meet them. -/

namespace Sys2Proof.Tests
open Sys2Proof.Machine Sys2Proof.Claims

/-! ### Helpers -/

/-- The machine of the vectors: reset, PC at `at'`, the instruction word stored there, then the vector's "before". -/
def start (at' w : Word) (before : State → State := id) : State :=
  before ((State.reset.setPc at').poke at' w)

/-- `f` of the next state; `none` where there is none. -/
def after {α : Type} (f : State → α) (s : State) : Option α :=
  match step s with
  | .next t => some (f t)
  | .fault _ => none
  | .refused _ => none

/-- A register, COND and PC. -/
def seen (r : RegId) (t : State) : Word × Word × Word := (t.getReg r, t.cond, t.pc)

/-- The console input is the given bytes, and closes or not. -/
def typed (bytes : List Byte) (closes : Bool) (s : State) : State := s.setCin { bytes, closes }

/-! ### WellFormed: the one check, on both sides of each end of the assigned vectors -/

theorem test_wellFormed_refuses_assigned :
    (Instr.trapUnassigned 0x20).wellFormed = false ∧ (Instr.trapUnassigned 0x25).wellFormed = false := by decide
theorem test_wellFormed_admits_unassigned :
    (Instr.trapUnassigned 0x1F).wellFormed = true ∧ (Instr.trapUnassigned 0x26).wellFormed = true ∧
    (Instr.trapUnassigned 0x00).wellFormed = true ∧ (Instr.trapUnassigned 0xFF).wellFormed = true := by decide

/-! ### Decoding, 95_test_vectors.md §2.3; where bits are written out, they follow the patterns of R82 -/

theorem test_decode_operate :
    decode 0b0001_010_011_0_00_100#16 = .addReg 2 3 4 ∧ decode 0x14DC = .addReg 2 3 4 ∧
    decode 0b0001_001_001_1_11111#16 = .addImm 1 1 0x1F ∧ decode 0b0101_010_011_0_00_100#16 = .andReg 2 3 4 ∧
    decode 0b0101_000_000_1_00000#16 = .andImm 0 0 0 ∧ decode 0b1001_001_010_111111#16 = .notReg 1 2 ∧
    decode 0x9280 = .notReg 1 2 := by decide
theorem test_decode_control :
    decode 0b0000_0_0_1_111111101#16 = .br false false true 0x1FD ∧ decode 0x07FE = .br false true true 0x1FE ∧
    decode 0b0000_1_0_0_000000101#16 = .br true false false 5 ∧ decode 0b1100_000_010_000000#16 = .jmp 2 ∧
    decode 0xCE3F = .jmp 0 ∧ decode 0b0100_1_00000000011#16 = .jsr 3 ∧ decode 0b0100_0_00_010_000000#16 = .jsrr 2 ∧
    decode 0x46BF = .jsrr 2 := by decide
theorem test_decode_load_store :
    decode 0b0010_001_000000100#16 = .ld 1 4 ∧ decode 0b1010_010_000000101#16 = .ldi 2 5 ∧
    decode 0b0110_011_110_000010#16 = .ldr 3 6 2 ∧ decode 0x62BF = .ldr 1 2 0x3F ∧
    decode 0b1110_000_000000010#16 = .lea 0 2 ∧ decode 0b0011_011_111111110#16 = .st 3 0x1FE ∧
    decode 0b1011_000_000000110#16 = .sti 0 6 ∧ decode 0b0111_001_010_000011#16 = .str 1 2 3 := by decide
theorem test_decode_trap :
    decode 0b1111_0000_00100000#16 = .trapGetc ∧ decode 0xFA20 = .trapGetc ∧ decode 0b1111_0000_00100001#16 = .trapOut ∧
    decode 0b1111_0000_00100010#16 = .trapPuts ∧ decode 0b1111_0000_00100011#16 = .trapIn ∧
    decode 0b1111_0000_00100100#16 = .trapPutsp ∧ decode 0b1111_0000_00100101#16 = .trapHalt ∧
    decode 0xF01F = .trapUnassigned 0x1F ∧ decode 0b1111_0000_00100110#16 = .trapUnassigned 0x26 := by decide
theorem test_decode_unassigned_opcodes :
    decode 0b1000_101010111100#16 = .rti 0xABC ∧ decode 0b1101_000100100011#16 = .res 0x123 := by decide
theorem test_encode_is_the_written_word :
    encode (.notReg 0 0) = 0x903F ∧ encode (.jmp 7) = 0xC1C0 ∧ encode (.br true true true 0x1FF) = 0x0FFF ∧
    encode (.trapHalt) = 0xF025 ∧ encode (.addImm 0 0 5) = 0x1025 ∧ encode (.ldr 1 2 0x3F) = 0x62BF := by decide
theorem test_decodeTableWord : decodeTableWord 16 0xF025 = some .trapHalt ∧ decodeTableWord 32 0xF025 = none := by decide
theorem test_withFetchWord_runs_the_word :
    after (fun t => (t.getReg 0, t.pc)) (State.reset.withFetchWord 16 0x1025) = some (5, 0x3001) := by decide

/-! ### Bit fields and flags, §2.1 and §2.2 -/

theorem test_sext : sext 0x10#5 = 0xFFF0 ∧ sext 0x1F#6 = 0x001F ∧ sext 0x100#9 = 0xFF00 ∧ sext 0x400#11 = 0xFC00 := by
  decide
theorem test_zext : zext16 0xFF = 0x00FF := by decide
theorem test_condOf : condOf 0x0000 = 2 ∧ condOf 0x0001 = 1 ∧ condOf 0x7FFF = 1 ∧ condOf 0x8000 = 4 := by decide

/-! ### The operate instructions, §3 -/

theorem test_T1_add : after (seen 2) (start 0x3000 0x14C4 fun s => (s.setReg 3 0x0005).setReg 4 0xFFFD) =
    some (0x0002, 1, 0x3001) := by decide
theorem test_T2_add_in_place : after (seen 1) (start 0x3000 0x1241 fun s => s.setReg 1 0x7FFF) =
    some (0xFFFE, 4, 0x3001) := by decide
theorem test_T4_add_imm_wraps : after (seen 1) (start 0x3000 0x1261 fun s => s.setReg 1 0xFFFF) =
    some (0x0000, 2, 0x3001) := by decide
theorem test_T7_add_imm_negative : after (seen 1) (start 0x3000 0x1270 fun s => s.setReg 1 0x0010) =
    some (0x0000, 2, 0x3001) := by decide
theorem test_T12_and : after (seen 2) (start 0x3000 0x54C4 fun s => (s.setReg 3 0xFF0F).setReg 4 0x8FF0) =
    some (0x8F00, 4, 0x3001) := by decide
theorem test_T15_and_imm_sign_extends : after (seen 1) (start 0x3000 0x5270 fun s => s.setReg 1 0xABCD) =
    some (0xABC0, 4, 0x3001) := by decide
theorem test_T18_not : after (seen 1) (start 0x3000 0x92BF fun s => s.setReg 2 0x00FF) =
    some (0xFF00, 4, 0x3001) := by decide
theorem test_T21_not_in_place : after (seen 0) (start 0x3000 0x903F fun s => s.setReg 0 0x8000) =
    some (0x7FFF, 1, 0x3001) := by decide

/-! ### The control transfers, §4 -/

theorem test_T30_brp : after (·.pc) (start 0x3004 0x03FD (·.setCond 1)) = some 0x3002 ∧
    after (·.pc) (start 0x3004 0x03FD (·.setCond 2)) = some 0x3005 ∧
    after (·.pc) (start 0x3004 0x03FD (·.setCond 4)) = some 0x3005 := by decide
theorem test_T33_T34_brn_brz : after (·.pc) (start 0x3000 0x0805 (·.setCond 4)) = some 0x3006 ∧
    after (·.pc) (start 0x3000 0x0405 (·.setCond 4)) = some 0x3001 ∧
    after (·.pc) (start 0x3000 0x0405 (·.setCond 2)) = some 0x3006 := by decide
theorem test_T41_ret : after (seen 7) (start 0x3007 0xC1C0 fun s => s.setReg 7 0x3002) =
    some (0x3002, 2, 0x3002) := by decide
theorem test_T45_jsr : after (seen 7) (start 0x3400 0x4C00) = some (0x3401, 2, 0x3001) := by decide
theorem test_T47_jsrr : after (seen 7) (start 0x3010 0x4080 fun s => s.setReg 2 0x5000) =
    some (0x3011, 2, 0x5000) := by decide
theorem test_T48_jsrr_r7 : after (seen 7) (start 0x3010 0x41C0 fun s => s.setReg 7 0x5000) =
    some (0x3011, 2, 0x3011) := by decide

/-! ### Loads and stores, §5 -/

theorem test_T61_ld_itself : after (seen 1) (start 0x3001 0x23FF) = some (0x23FF, 1, 0x3002) := by decide
theorem test_T63_ld_wraps : after (seen 1) (start 0xFFFF 0x2201 fun s => s.poke 0x0001 0x0042) =
    some (0x0042, 1, 0x0000) := by decide
theorem test_T64_ldi : after (seen 2) (start 0x3003 0xA405 fun s => (s.poke 0x3009 0x4000).poke 0x4000 0xFFFB) =
    some (0xFFFB, 4, 0x3004) := by decide
theorem test_T68_ldr_in_place : after (seen 1) (start 0x3000 0x6241 fun s => (s.setReg 1 0xFFFF).poke 0x0000 0x00AA) =
    some (0x00AA, 1, 0x3001) := by decide
theorem test_T69_ldr_negative : after (seen 1) (start 0x3000 0x62A0 fun s => (s.setReg 2 0x4020).poke 0x4000 0x8001) =
    some (0x8001, 4, 0x3001) := by decide
theorem test_T72_T73_lea : after (seen 0) (start 0xFFFF 0xE000 fun s => s.setReg 0 0x1234) = some (0x0000, 2, 0x0000) ∧
    after (seen 0) (start 0x8000 0xE1FF) = some (0x8000, 4, 0x8001) := by decide
theorem test_T75_st : after (fun t => (t.peek 0x3004, t.cond, t.pc)) (start 0x3005 0x37FE fun s => s.setReg 3 0x1234) =
    some (0x1234, 2, 0x3006) := by decide
theorem test_T78_sti : after (fun t => (t.peek 0x4000, t.peek 0x3009, t.pc))
    (start 0x3002 0xB006 fun s => (s.setReg 0 0xFFFB).poke 0x3009 0x4000) = some (0xFFFB, 0x4000, 0x3003) := by decide
theorem test_T79_sti_over_its_pointer : after (fun t => t.peek 0x3003)
    (start 0x3002 0xB000 fun s => (s.setReg 0 0x0007).poke 0x3003 0x3003) = some 0x0007 := by decide
theorem test_T82_str_wraps : after (fun t => t.peek 0xFFFF)
    (start 0x3000 0x72BF fun s => s.setReg 1 0x0001) = some 0x0001 := by decide

/-! ### The keyboard registers, §6. The draw of R232 is opaque, so where a byte is pending the poll is tested itself. -/

theorem test_T90_poll_ready : (kbdPoll true (typed [0x61] true State.reset)).peek 0xFE00 = 0x8000 ∧
    (kbdPoll true (typed [0x61] true State.reset)).peek 0xFE02 = 0x0061 ∧
    (kbdPoll true (typed [0x61] true State.reset)).cin.bytes = [] := by decide
theorem test_T92_poll_not_ready :
    (kbdPoll false ((typed [0x61] true State.reset).poke 0xFE02 0x2222)).peek 0xFE02 = 0x2222 ∧
    (kbdPoll false ((typed [0x61] true State.reset).poke 0xFE00 0x1111)).peek 0xFE00 = 0x0000 ∧
    (kbdPoll false (typed [0x61] true State.reset)).cin.bytes = [0x61] := by decide
theorem test_T91_ldi_kbsr : after (fun t => (t.getReg 1, t.cond, t.peek 0xFE00, t.peek 0xFE02))
    (start 0x3000 0xA200 fun s => ((s.poke 0x3001 0xFE00).poke 0xFE00 0x1111).poke 0xFE02 0x2222) =
    some (0x0000, 2, 0x0000, 0x2222) := by decide
theorem test_T93_ldi_kbdr : after (fun t => (t.getReg 1, t.peek 0xFE00, t.cin.bytes))
    (start 0x3000 0xA200 fun s =>
      (((typed [0x62] true s).poke 0x3001 0xFE02).poke 0xFE00 0x8000).poke 0xFE02 0x0061) =
    some (0x0061, 0x8000, [0x62]) := by decide
theorem test_T94_sti_kbsr : after (fun t => (t.peek 0xFE00, t.peek 0xFE02, t.cin.bytes))
    (start 0x3000 0xB200 fun s =>
      (((typed [0x62] true s).setReg 1 0x8000).poke 0x3001 0xFE00).poke 0xFE02 0x0061) =
    some (0x8000, 0x0061, [0x62]) := by decide
theorem test_T97_fetch_kbsr : after (fun t => (t.pc, t.peek 0xFE00, t.fault)) (start 0xFE00 0x1234) =
    some (0xFE01, 0x0000, none) := by decide

/-! ### TRAP, RTI, RES, §7. `IN_PROMPT` and `HALT_MSG` are opaque: their outputs are tested by `rfl`. -/

theorem test_T102_getc : after (fun t => (seen 0 t, t.getReg 7, t.cin.bytes))
    (start 0x3000 0xF020 fun s => typed [0xFF] true (s.setReg 0 0xFFFF)) =
    some ((0x00FF, 1, 0x3001), 0x3001, []) := by decide
theorem test_T103_getc_closed : after (fun t => (seen 0 t, t.getReg 7, t.fault))
    (start 0x3000 0xF020 fun s => (s.setReg 0 0xABCD).setCond 4) =
    some ((0xABCD, 4, 0x3001), 0x3001, some .consoleInputClosed) := by decide
theorem test_T105_out : after (fun t => (t.cout, t.getReg 7, t.pc)) (start 0x3007 0xF021 fun s => s.setReg 0 0x1241) =
    some ([0x41], 0x3008, 0x3008) := by decide
theorem test_T108_puts : after (fun t => (t.cout, t.getReg 0, t.getReg 7)) (start 0x3000 0xF022 fun s =>
    (((s.setReg 0 0x4000).poke 0x4000 0x0148).poke 0x4001 0x0100).poke 0x4002 0x0049) =
    some ([0x48, 0x00, 0x49], 0x4000, 0x3001) := by decide
theorem test_T110_puts_wraps : after (·.cout) (start 0x3000 0xF022 fun s =>
    ((s.setReg 0 0xFFFF).poke 0xFFFF 0x0041).poke 0x0000 0x0042) = some [0x41, 0x42] := by decide
theorem test_T111_in : after (fun t => (seen 0 t, t.getReg 7, t.cin.bytes))
    (start 0x3000 0xF023 fun s => typed [0x7A] true (s.setReg 0 0xFFFF)) =
    some ((0x007A, 1, 0x3001), 0x3001, []) := by decide
/-- T111, and the prompt in the log while IN waits (R164, D26, R236). -/
theorem test_T111_in_output :
    after (·.cout) (start 0x3000 0xF023 (typed [0x7A] true)) = some (Config.inPrompt ++ [0x7A]) ∧
    after (fun t => (t.cout, t.wait, t.pc)) (start 0x3000 0xF023 (typed [] false)) =
      some (Config.inPrompt, some .inEcho, 0x3001) := ⟨rfl, rfl⟩
/-- A wait that a byte ends (R195): IN echoes it, GETC does not, and R7 and PC stand; and one that nothing ends. -/
theorem test_resume :
    after (fun t => (t.cout, seen 0 t, t.wait)) (start 0x3000 0x0000 fun s =>
      (typed [] false (s.setWait (some .inEcho))).deliver [0x7A] false) = some ([0x7A], (0x007A, 1, 0x3000), none) ∧
    after (fun t => (t.cout, t.getReg 0, t.getReg 7)) (start 0x3000 0x0000 fun s =>
      typed [0x7A] true (s.setWait (some .getc))) = some ([], 0x007A, 0) ∧
    after (·.pc) (start 0x3000 0x0000 fun s => typed [] false (s.setWait (some .getc))) = none := by decide
theorem test_T113_putsp : after (·.cout) (start 0x3000 0xF024 fun s =>
    (((s.setReg 0 0x4000).poke 0x4000 0x4948).poke 0x4001 0x0021).poke 0x4002 0x4141) =
    some [0x48, 0x49, 0x21] := by decide
theorem test_T115_putsp_low_zero : after (fun t => (t.cout, t.getReg 7)) (start 0x3000 0xF024 fun s =>
    ((s.setReg 0 0x4000).poke 0x4000 0x4200).poke 0x4001 0x4141) = some ([], 0x3001) := by decide
theorem test_T120_halt : after (fun t => (t.run, seen 7 t, t.fault)) (start 0x3001 0xF025 (·.setCond 1)) =
    some (.halted, (0x3002, 1, 0x3002), none) := by decide
theorem test_T120_halt_output : after (·.cout) (start 0x3001 0xF025) = some Config.haltMsg := by rfl
theorem test_T123_T124_unassigned :
    after (fun t => (t.fault, seen 7 t)) (start 0x3000 0xF01F) =
      some (some (.badTrapVector 0x1F), (0x3001, 2, 0x3001)) ∧
    after (fun t => (t.fault, seen 7 t)) (start 0x3000 0xF026) =
      some (some (.badTrapVector 0x26), (0x3001, 2, 0x3001)) := by decide
theorem test_T127_rti : after (fun t => (t.fault, seen 7 t, t.run)) (start 0x3000 0x8ABC fun s => s.setReg 7 0x1111) =
    some (some (.illegalOpcode 0x8ABC), (0x1111, 2, 0x3001), .running) := by decide
theorem test_T129_res : after (fun t => (t.fault, t.pc)) (start 0x3000 0xDFFF) =
    some (some (.illegalOpcode 0xDFFF), 0x3001) := by decide

/-! ### Memory and the loader -/

theorem test_memory_stays_canonical :
    (State.reset.poke 0x4000 0x0001).poke 0x4000 0x0000 = State.reset ∧
    ((State.reset.poke 2 7).poke 1 8).mem = [(1, 8), (2, 7)] := by decide
theorem test_image_is_big_endian :
    imageOfBytes [0x30, 0x00, 0x10, 0x25, 0xF0, 0x25] = some { origin := 0x3000, words := [0x1025, 0xF025] } := by decide

/-! ### Witnesses: each statement with hypotheses, on a state and operands that meet them together, clause by clause -/

/-- A string "HI" of PUTS at 0x4000 (T107) and of PUTSP at 0x5000 (T113), R0 at the first; input `[0x61, 0x62]`. -/
def busy : State :=
  ((((typed [0x61, 0x62] false (State.reset.setReg 0 0x4000)).poke 0x4000 0x0048).poke 0x4001 0x0049).poke 0x5000
    0x4948).poke 0x5001 0x0021

theorem witness_StepRunsTheDecodedInstruction :
    (State.reset.run = .running ∧ State.reset.fault = none ∧ State.reset.wait = none ∧ decode (memRead State.reset.pc State.reset).1 =
      .br false false false 0 ∧ State.reset.pc ≠ 0xFE00) ∧
    (decode (memRead (State.reset.setPc 0xFE00).pc (State.reset.setPc 0xFE00)).1 = .br false false false 0) := by decide

theorem witness_StoppedMachineHasNoStep :
    State.reset.halt.run = .halted ∧ (raise .consoleInputClosed State.reset).fault ≠ none ∧
    (raise .consoleInputClosed State.reset.halt).fault ≠ none ∧
    ¬(State.reset.run = .halted ∨ State.reset.fault ≠ none) := by decide

theorem witness_DecodeOfEncodeIsTheInstruction :
    (Instr.notReg 7 0).wellFormed = true ∧ (Instr.trapUnassigned 0x1F).wellFormed = true ∧
    (Instr.trapUnassigned 0x26).wellFormed = true := by decide

/-- Each clause on two words that differ in every unused bit. -/
theorem witness_UnusedBitsAreIgnored :
    ((0x14C4 : Word) &&& 0xF020 = 0x1000 ∧ ((0x14C4 : Word) ^^^ 0x14DC) &&& 0xFFE7 = 0) ∧
    ((0x54C4 : Word) &&& 0xF020 = 0x5000 ∧ ((0x54C4 : Word) ^^^ 0x54DC) &&& 0xFFE7 = 0) ∧
    ((0x92BF : Word) &&& 0xF000 = 0x9000 ∧ ((0x92BF : Word) ^^^ 0x9280) &&& 0xFFC0 = 0) ∧
    ((0xC000 : Word) &&& 0xF000 = 0xC000 ∧ ((0xC000 : Word) ^^^ 0xCE3F) &&& 0xF1C0 = 0) ∧
    ((0x4080 : Word) &&& 0xF800 = 0x4000 ∧ ((0x4080 : Word) ^^^ 0x46BF) &&& 0xF9C0 = 0) ∧
    ((0xF020 : Word) &&& 0xF000 = 0xF000 ∧ ((0xF020 : Word) ^^^ 0xFF20) &&& 0xF0FF = 0) ∧
    ((0x8ABC : Word) &&& 0xF000 = 0x8000 ∧ (0xDFFF : Word) &&& 0xF000 = 0xD000) := by decide

/-- Both sides of each equivalence, at the ends of the assigned vectors. -/
theorem witness_IllegalWordsAreTheUnassignedOnes :
    (∃ low, decode 0x8FFF = .rti low) ∧ (∃ low, decode 0xD000 = .res low) ∧
    (∃ v, decode 0xF01F = .trapUnassigned v) ∧ (∃ v, decode 0xF026 = .trapUnassigned v) ∧
    ¬((0xF020 : Word) &&& 0x00FF).toNat < 0x20 ∧ ¬0x25 < ((0xF025 : Word) &&& 0x00FF).toNat :=
  ⟨⟨0xFFF, by decide⟩, ⟨0x000, by decide⟩, ⟨0x1F, by decide⟩, ⟨0x26, by decide⟩, by decide, by decide⟩

/-! The premise on the word, for the statement about each instruction, with the unused bits not at their usual values. -/

theorem witness_AddRegisterWritesTheSum : (0x14DC : Word) &&& 0xF020 = 0x1000 := by decide
theorem witness_AddImmediateWritesTheSum : (0x127F : Word) &&& 0xF020 = 0x1020 := by decide
theorem witness_AndRegisterWritesTheConjunction : (0x54DC : Word) &&& 0xF020 = 0x5000 := by decide
theorem witness_AndImmediateWritesTheConjunction : (0x5270 : Word) &&& 0xF020 = 0x5020 := by decide
theorem witness_NotWritesTheComplement : (0x9280 : Word) &&& 0xF000 = 0x9000 := by decide
theorem reset_inv : State.reset.Inv := ⟨by decide, by decide, by decide, by decide⟩
theorem witness_BranchGoesWhereAFlagMatches : (0x0FFF : Word) &&& 0xF000 = 0x0000 ∧ State.reset.Inv :=
  ⟨by decide, reset_inv⟩
theorem witness_JumpGoesToTheBaseRegister : (0xCE3F : Word) &&& 0xF000 = 0xC000 := by decide
theorem witness_JsrLinksAndGoesToTheOffset : (0x4FFF : Word) &&& 0xF800 = 0x4800 := by decide
theorem witness_JsrrLinksThenReadsTheBase : (0x46BF : Word) &&& 0xF800 = 0x4000 := by decide
theorem witness_LdLoadsFromThePcRelativeAddress :
    (0x2FFF : Word) &&& 0xF000 = 0x2000 ∧ plus (State.reset.setPc 0xFE01).pc 0x1FF#9 = 0xFE00 := by decide
theorem witness_LdiLoadsThroughThePointer :
    (0xA405 : Word) &&& 0xF000 = 0xA000 ∧
    memRead (plus (busy.setPc 0x4000).pc 1#9) (busy.setPc 0x4000) = (0x0049, busy.setPc 0x4000) := ⟨by decide, rfl⟩
theorem witness_LdrLoadsFromBasePlusOffset : (0x62BF : Word) &&& 0xF000 = 0x6000 := by decide
theorem witness_LeaWritesTheAddressAndItsFlags : (0xE1FF : Word) &&& 0xF000 = 0xE000 := by decide
theorem witness_StStoresAtThePcRelativeAddress : (0x37FE : Word) &&& 0xF000 = 0x3000 := by decide
theorem witness_StiStoresThroughThePointer :
    (0xB006 : Word) &&& 0xF000 = 0xB000 ∧
    memRead (pcRelative 1#9 (busy.setPc 0x4000)) (busy.setPc 0x4000) = (0x0049, busy.setPc 0x4000) := ⟨by decide, rfl⟩
theorem witness_StrStoresAtBasePlusOffset : (0x72BF : Word) &&& 0xF000 = 0x7000 := by decide
theorem witness_GetcReadsOneByte :
    (0xFA20 : Word) &&& 0xF0FF = 0xF020 ∧ busy.cin.bytes = 0x61 :: [0x62] ∧
    (State.reset.cin.bytes = [] ∧ State.reset.cin.closes = true) ∧
    ((typed [] false State.reset).cin.bytes = [] ∧ (typed [] false State.reset).cin.closes = false) := by decide
theorem witness_OutWritesTheLowByte : (0xFF21 : Word) &&& 0xF0FF = 0xF021 := by decide
theorem witness_PutsRunsItsLoopToTheEnd : (0xFF22 : Word) &&& 0xF0FF = 0xF022 := by decide
theorem witness_PutsWritesAZeroTerminatedString :
    (∀ k, k ≤ 2 → busy.getReg 0 + BitVec.ofNat 16 k ≠ 0xFE00) ∧
    (∀ k, k < 2 → busy.peek (busy.getReg 0 + BitVec.ofNat 16 k) ≠ 0) ∧
    busy.peek (busy.getReg 0 + BitVec.ofNat 16 2) = 0 := by decide
theorem witness_InPromptsReadsAndEchoes :
    (0xFF23 : Word) &&& 0xF0FF = 0xF023 ∧ busy.cin.bytes = 0x61 :: [0x62] ∧
    (State.reset.cin.bytes = [] ∧ State.reset.cin.closes = true) ∧
    ((typed [] false State.reset).cin.bytes = [] ∧ (typed [] false State.reset).cin.closes = false) := by decide
/-- A GETC that waits, one that a byte has come for, and one whose input has closed. -/
theorem witness_AWaitEndsWithAByteOrTheClosingOnly :
    let held (bytes : List Byte) (closes : Bool) : State := typed bytes closes (State.reset.setWait (some .getc))
    ((held [] false).held .getc ∧ (held [] false).cin.bytes = [] ∧ (held [] false).cin.closes = false) ∧
    ((held [0x61] false).held .getc ∧ (held [0x61] false).cin.bytes = 0x61 :: []) ∧
    ((held [] true).held .getc ∧ (held [] true).cin.bytes = [] ∧ (held [] true).cin.closes = true) :=
  ⟨⟨⟨rfl, rfl, rfl⟩, rfl, rfl⟩, ⟨⟨rfl, rfl, rfl⟩, rfl⟩, ⟨⟨rfl, rfl, rfl⟩, rfl, rfl⟩⟩
/-- A byte delivered, and the closing alone. -/
theorem witness_AWaitChangesNothingInTheEnd :
    let s := typed [] false State.reset
    s.run = .running ∧ s.fault = none ∧ s.wait = none ∧ s.cin.bytes = [] ∧ s.cin.closes = false ∧
    ([0x61] ≠ ([] : List Byte) ∨ false = true) ∧ (([] : List Byte) ≠ [] ∨ true = true) := by decide
theorem witness_PutspRunsItsLoopToTheEnd : (0xFF24 : Word) &&& 0xF0FF = 0xF024 := by decide
theorem witness_PutspWritesAZeroTerminatedPackedString :
    (∀ j, j ≤ 3 → (busy.setReg 0 0x5000).getReg 0 + BitVec.ofNat 16 (j / 2) ≠ 0xFE00) ∧
    (∀ j, j < 3 → packedByte (busy.setReg 0 0x5000) 0x5000 j ≠ 0) ∧
    packedByte (busy.setReg 0 0x5000) 0x5000 3 = 0 := by decide
theorem witness_HaltAnnouncesAndStops : (0xFF25 : Word) &&& 0xF0FF = 0xF025 ∧ State.reset.fault = none := by decide
theorem witness_UnassignedVectorLinksThenFaults :
    ((0xF01F : Word) &&& 0xF000 = 0xF000 ∧ ((0xF01F : Word) &&& 0x00FF).toNat < 0x20) ∧
    ((0xFF26 : Word) &&& 0xF000 = 0xF000 ∧ 0x25 < ((0xFF26 : Word) &&& 0x00FF).toNat) := by decide
theorem witness_RtiRaisesIllegalOpcode : (0x8FFF : Word) &&& 0xF000 = 0x8000 := by decide
theorem witness_ResRaisesIllegalOpcode : (0xDFFF : Word) &&& 0xF000 = 0xD000 := by decide

/-! The statements about a step that answers a next state. -/

theorem witness_EveryStepKeepsTheMachineWellFormed :
    ∃ t, State.reset.Inv ∧ step State.reset = .next t :=
  ⟨_, reset_inv, rfl⟩
theorem witness_ResetIsWellFormed : Memory.wf [(0x3000, 0x1025), (0x3001, 0xF025)] = true := by decide
/-- A step that goes on, and one that waits. -/
theorem witness_EveryStepCompletesButAWaitForInput :
    (State.reset.run = .running ∧ State.reset.fault = none ∧ ∃ t, step State.reset = .next t) ∧
    step (typed [] false (State.reset.setWait (some .getc))) = .fault .heldForInput := ⟨⟨rfl, rfl, _, rfl⟩, rfl⟩
theorem witness_RegistersChangeOnlyWhereTheRuleNames :
    ∃ t, exec (.addImm 0 0 5) busy = .next t ∧ (1 : RegId) ∉ regsWritten (.addImm 0 0 5) := ⟨_, rfl, by decide⟩
/-- Both arms, and the exceptions: a closed input, a wait. -/
theorem witness_CondIsSetFromTheDestinationOnly :
    (∃ t, exec (.addImm 0 0 5) busy = .next t ∧ flagSource (.addImm 0 0 5) = some 0) ∧
    (∃ t, exec .trapOut busy = .next t ∧ flagSource .trapOut = none) ∧
    (∃ t, exec .trapGetc State.reset = .next t ∧ t.fault = some .consoleInputClosed) ∧
    (∃ t, exec .trapGetc (typed [] false State.reset) = .next t ∧ t.wait = some .getc) :=
  ⟨⟨_, rfl, rfl⟩, ⟨_, rfl, rfl⟩, ⟨_, rfl, rfl⟩, ⟨_, rfl, rfl⟩⟩
theorem witness_CondIsReadOnlyByBranches : ∀ n z p off9, Instr.jmp 2 ≠ .br n z p off9 := fun _ _ _ _ => nofun
theorem witness_PcAfterEachInstruction :
    ∃ t, exec (decode (fetch State.reset).1) (fetch State.reset).2 = .next t := ⟨_, rfl⟩
/-- A store, a load clear of KBSR, and the two services with no fixed reads. -/
theorem witness_MemoryChangesOnlyByStoresAndPolls :
    (∃ t, exec (.str 0 0 1) busy = .next t ∧ storeAddress (.str 0 0 1) busy ≠ some 0x4000 ∧
      dataReads (.str 0 0 1) busy = some [] ∧ 0xFE00 ∉ ([] : List Word)) ∧
    (∃ t, exec (.ldr 1 0 0) busy = .next t ∧ dataReads (.ldr 1 0 0) busy = some [0x4000] ∧
      0xFE00 ∉ ([0x4000] : List Word)) ∧
    dataReads .trapPuts busy = none := ⟨⟨_, rfl, by decide, rfl, by decide⟩, ⟨_, rfl, rfl, by decide⟩, rfl⟩
theorem witness_OnlyTrapHaltHalts :
    (∃ t, step (start 0x3000 0xF025) = .next t ∧ (start 0x3000 0xF025).current = .trapHalt) ∧
    ∃ t, step State.reset = .next t ∧ State.reset.current ≠ .trapHalt := ⟨⟨_, rfl, rfl⟩, ⟨_, rfl, by decide⟩⟩
/-- One step for each cause, one that raises none, and one that goes on from a wait. -/
theorem witness_FaultsAreExactlyTheTableOfCauses :
    (∃ t, step (start 0x3000 0x8ABC) = .next t) ∧ (∃ t, step (start 0x3000 0xD123) = .next t) ∧
    (∃ t, step (start 0x3000 0xF026) = .next t) ∧ (∃ t, step (start 0x3000 0xF020) = .next t) ∧
    (∃ t, step State.reset = .next t) ∧ ∃ t, step (State.reset.setWait (some .inEcho)) = .next t :=
  ⟨⟨_, rfl⟩, ⟨_, rfl⟩, ⟨_, rfl⟩, ⟨_, rfl⟩, ⟨_, rfl⟩, ⟨_, rfl⟩⟩
theorem witness_OutputLogOnlyGrows :
    (∃ t, step (start 0x3000 0xF021) = .next t) ∧
    ∃ t, step State.reset = .next t ∧ writesOutput State.reset.current = false := ⟨⟨_, rfl⟩, ⟨_, rfl, rfl⟩⟩
theorem witness_InputIsConsumedInOrder :
    (∃ t, exec .trapGetc busy = .next t) ∧
    ∃ t, exec (.ldr 1 0 0) busy = .next t ∧ dataReads (.ldr 1 0 0) busy = some [0x4000] ∧
      0xFE00 ∉ ([0x4000] : List Word) := ⟨⟨_, rfl⟩, ⟨_, rfl, rfl, by decide⟩⟩

/-! The statements about the memory interface. -/

/-- The neighbours of KBSR, KBDR, and KBSR itself. -/
theorem witness_ReadsArePureButForKbsr :
    (0xFDFF : Word) ≠ 0xFE00 ∧ (0xFE01 : Word) ≠ 0xFE00 ∧ (0xFE02 : Word) ≠ 0xFE00 ∧ kbsr = 0xFE00 := by decide
/-- A poll that finds a byte; none pending; a byte not yet arrived. -/
theorem witness_PollWritesTheDeviceSlots :
    busy.cin.bytes = 0x61 :: [0x62] ∧ State.reset.cin.bytes = [] ∧ (0xFE01 : Word) ≠ 0xFE00 ∧
    (0xFE01 : Word) ≠ 0xFE02 := by decide
theorem witness_LoadsSeeTheLastStoreButAtKbsr : (0xFE02 : Word) ≠ 0xFE00 ∧ (0xFE01 : Word) ≠ 0xFE00 := by decide
theorem witness_FetchFromKbsrRunsTheStatus :
    (busy.setPc 0xFE00).run = .running ∧ (busy.setPc 0xFE00).fault = none ∧
    (busy.setPc 0xFE00).wait = none ∧ (busy.setPc 0xFE00).pc = 0xFE00 := by decide
/-- T76. -/
theorem witness_StoreIsSeenByTheNextFetch :
    let s := start 0x3001 0x3000 fun s => s.setReg 0 0x1021
    s.run = .running ∧ s.fault = none ∧ s.wait = none ∧ s.pc ≠ 0xFE00 ∧ s.pc + 1 ≠ 0xFE00 ∧ decode (s.peek s.pc) = .st 0 0 := by decide
theorem witness_SignExtensionKeepsTheSignedReading :
    5 ∈ [5, 6, 9, 11] ∧ 6 ∈ [5, 6, 9, 11] ∧ 9 ∈ [5, 6, 9, 11] ∧ 11 ∈ [5, 6, 9, 11] := by decide
theorem witness_MemoriesThatReadAlikeAreEqual :
    Memory.wf [(0, 1), (65535, 2)] = true ∧
    ∀ a < 65536, Memory.read [(0, 1), (65535, 2)] a = Memory.read (Memory.insert [(65535, 2)] 0 1) a :=
  ⟨by decide, fun _ _ => rfl⟩
/-- An image that ends at the top of memory; the addresses at its edges. -/
theorem witness_ImageWordsLieAtOriginPlusIndex :
    let im : Image := { origin := 0xFFFE, words := [0x1025, 0xF025] }
    im.fits = true ∧ 0xFFFD < im.origin.toNat ∧ im.origin.toNat + im.words.length ≤ 65536 := by decide
theorem witness_FairPollingFindsThePendingByte :
    busy.cin.bytes = 0x61 :: [0x62] ∧ ∀ n, ∃ m, n ≤ m ∧ (fun k => k % 2 == 1) m = true :=
  ⟨by decide, fun n => ⟨2 * n + 1, by omega, by simp⟩⟩

end Sys2Proof.Tests
end

section
/-! PROOFS about the state leaving reset (10_state.md R35 to R40): one rule per field of `State.boot` that the spec gives a
value to, and the statement about reset assembled from them. -/
namespace Sys2Proof.Machine

variable (p : BootParams)

@[simp] theorem State.boot_run : (State.boot p).run = .running := rfl
@[simp] theorem State.boot_fault : (State.boot p).fault = none := rfl
@[simp] theorem State.boot_pc : (State.boot p).pc = 0x3000 := rfl
@[simp] theorem State.boot_cond : (State.boot p).cond = 0x0002 := rfl
@[simp] theorem State.boot_regs : (State.boot p).regs = p.gprReset := rfl
@[simp] theorem State.boot_mem : (State.boot p).mem = p.memInit := rfl
@[simp] theorem State.boot_cin : (State.boot p).cin = p.consoleIn := rfl
@[simp] theorem State.boot_cout : (State.boot p).cout = [] := rfl

end Sys2Proof.Machine
end

section
open Sys2Proof.Machine

/-- Settles O1: no field of the reset state depends on an open parameter but the three that R38 to R40 hand over. -/
theorem resetLeavesTheSpecifiedState : Obligations.ResetLeavesTheSpecifiedState := fun p =>
  ⟨State.boot_run p, State.boot_fault p, State.boot_pc p, State.boot_cond p,
    State.boot_regs p, State.boot_mem p, State.boot_cin p, State.boot_cout p⟩

end

section
/-! PROOFS about the keyboard poll (20_memory.md R54, R55): what each of its two outcomes leaves in the device slots and in
the input, and the statement about the poll assembled from them and from the frame lemmas of `kbdPoll`. -/
namespace Sys2Proof.Machine

/-- The zero-extended byte of R54, spelled by its value. -/
theorem zext16_eq_ofNat (c : Byte) : zext16 c = BitVec.ofNat 16 c.toNat := (BitVec.ofNat_toNat 16 c).symm

section Ready
variable {s : State} {c : Byte} {rest : List Byte} (pending : s.cin.bytes = c :: rest)
include pending

theorem kbdPoll_ready_status : (kbdPoll true s).peek kbsr = 0x8000 := by
  simp [kbdPoll_ready pending, kbsr, kbdr]

theorem kbdPoll_ready_data : (kbdPoll true s).peek kbdr = BitVec.ofNat 16 c.toNat := by
  rw [kbdPoll_ready pending, State.poke_peek, if_pos rfl, zext16_eq_ofNat]

theorem kbdPoll_ready_cin : (kbdPoll true s).cin = { s.cin with bytes := rest } := by
  simp [kbdPoll_ready pending]

end Ready

section NotReady
variable {s : State} {arrived : Bool} (quiet : s.cin.bytes = [] ∨ arrived = false)
include quiet

theorem kbdPoll_notReady_status : (kbdPoll arrived s).peek kbsr = 0x0000 := by
  simp [kbdPoll_notReady quiet]

/-- Stated for every address but KBSR: a poll that finds nothing leaves KBDR too. -/
theorem kbdPoll_notReady_peek {a : Word} (ha : a ≠ kbsr) : (kbdPoll arrived s).peek a = s.peek a := by
  rw [kbdPoll_notReady quiet, State.poke_peek, if_neg ha]
  rfl

theorem kbdPoll_notReady_cin : (kbdPoll arrived s).cin = s.cin := by
  simp [kbdPoll_notReady quiet]

end NotReady

/-- The two device slots are distinct words (R51). -/
theorem kbdr_ne_kbsr : kbdr ≠ kbsr := by decide

end Sys2Proof.Machine
end

section
open Sys2Proof.Machine

/-- Settles O51: the frame holds of either outcome, and the two outcomes are the poll that finds a byte (R54) and the
poll that finds none (R55). -/
theorem pollWritesTheDeviceSlots : Obligations.PollWritesTheDeviceSlots := by
  intro arrived s
  refine ⟨kbdPoll_getReg arrived s, kbdPoll_pc arrived s, kbdPoll_cond arrived s, kbdPoll_run arrived s,
    kbdPoll_fault arrived s, kbdPoll_wait arrived s, kbdPoll_cout arrived s, ?frame, ?ready, ?notReady⟩
  case frame => exact fun _ notKbsr notKbdr => kbdPoll_peek notKbsr notKbdr arrived s
  case ready =>
    rintro c rest pending rfl
    exact ⟨kbdPoll_ready_status pending, kbdPoll_ready_data pending, kbdPoll_ready_cin pending⟩
  case notReady =>
    intro quiet
    exact ⟨kbdPoll_notReady_status quiet, kbdPoll_notReady_peek quiet kbdr_ne_kbsr, kbdPoll_notReady_cin quiet⟩

end

section
/-! PROOFS about the decoder and the mask of a word (30_encoding.md R81 to R87): what a masked word tells of its fields,
the form that each opcode and mode bit select, and the statement about unused bits assembled from them. -/
namespace Sys2Proof

/-! ### What a mask tells of a field -/

section Mask
variable {w m c : Word}

/-- A field all of whose bits the mask keeps reads alike from the word and from the masked word. -/
theorem extract_of_and (masked : w &&& m = c) {lo len : Nat} (full : m.extractLsb' lo len = BitVec.allOnes len) :
    w.extractLsb' lo len = c.extractLsb' lo len := by
  rw [← masked, BitVec.extractLsb'_and, full, BitVec.and_allOnes]

/-- A bit that the mask keeps reads alike from the word and from the masked word. -/
theorem getLsbD_of_and (masked : w &&& m = c) {k : Nat} (kept : m.getLsbD k = true) : w.getLsbD k = c.getLsbD k := by
  rw [← masked, BitVec.getLsbD_and, kept, Bool.and_true]

/-- The opcode of a word (R80) under a mask that keeps bits 15:12. -/
theorem opcodeOf_of_and {o : Opcode} (masked : w &&& m = c) (full : m.extractLsb' 12 4 = BitVec.allOnes 4)
    (code : c.extractLsb' 12 4 = o.code) : opcodeOf w = o :=
  opcodeOf_eq ((extract_of_and masked full).trans code)

end Mask

/-! ### The forms that R83 and R85 select -/

section Forms
variable {w : Word}

theorem decode_addReg (h : w &&& 0xF020 = 0x1000) : decode w = .addReg (fieldDR w) (fieldSR1 w) (fieldSR2 w) := by
  have opcode : opcodeOf w = .add := opcodeOf_of_and h (by decide) (by decide)
  have mode : w.getLsbD 5 = false := getLsbD_of_and h (by decide)
  simp only [decode, opcode, mode, Bool.false_eq_true, if_false]

theorem decode_andReg (h : w &&& 0xF020 = 0x5000) : decode w = .andReg (fieldDR w) (fieldSR1 w) (fieldSR2 w) := by
  have opcode : opcodeOf w = .and := opcodeOf_of_and h (by decide) (by decide)
  have mode : w.getLsbD 5 = false := getLsbD_of_and h (by decide)
  simp only [decode, opcode, mode, Bool.false_eq_true, if_false]

theorem decode_notReg (h : w &&& 0xF000 = 0x9000) : decode w = .notReg (fieldDR w) (fieldSR1 w) := by
  have opcode : opcodeOf w = .not := opcodeOf_of_and h (by decide) (by decide)
  simp only [decode, opcode]

theorem decode_jmp (h : w &&& 0xF000 = 0xC000) : decode w = .jmp (fieldSR1 w) := by
  have opcode : opcodeOf w = .jmp := opcodeOf_of_and h (by decide) (by decide)
  simp only [decode, opcode]

theorem decode_jsrr (h : w &&& 0xF800 = 0x4000) : decode w = .jsrr (fieldSR1 w) := by
  have opcode : opcodeOf w = .jsr := opcodeOf_of_and h (by decide) (by decide)
  have mode : w.getLsbD 11 = false := getLsbD_of_and h (by decide)
  simp only [decode, opcode, mode, Bool.false_eq_true, if_false]

theorem decode_trap (h : w &&& 0xF000 = 0xF000) : decode w = decodeTrap (fieldVect w) := by
  have opcode : opcodeOf w = .trap := opcodeOf_of_and h (by decide) (by decide)
  simp only [decode, opcode]

theorem decode_rti (h : w &&& 0xF000 = 0x8000) : decode w = .rti (fieldLow w) := by
  have opcode : opcodeOf w = .rti := opcodeOf_of_and h (by decide) (by decide)
  simp only [decode, opcode]

theorem decode_res (h : w &&& 0xF000 = 0xD000) : decode w = .res (fieldLow w) := by
  have opcode : opcodeOf w = .res := opcodeOf_of_and h (by decide) (by decide)
  simp only [decode, opcode]

end Forms

/-! ### Words that agree under a mask -/

section Agree
variable {w w' m : Word} (agree : (w ^^^ w') &&& m = 0)
include agree

/-- Words that differ in no bit of a mask are one word under it. -/
theorem and_eq_of_agree : w' &&& m = w &&& m := by
  have differ : (w &&& m) ^^^ (w' &&& m) = 0 := by
    rw [← agree]
    ext i
    simp [Bool.and_xor_distrib_right]
  exact (BitVec.xor_eq_zero_iff.mp differ).symm

/-- Words that agree under a mask are one word under every narrower mask. -/
theorem and_eq_of_agree_within {k : Word} (within : m &&& k = k) : w' &&& k = w &&& k := by
  rw [← within, ← BitVec.and_assoc, and_eq_of_agree agree, BitVec.and_assoc]

/-- Words that agree under a mask read alike in every field the mask keeps whole. -/
theorem extract_agree {lo len : Nat} (full : m.extractLsb' lo len = BitVec.allOnes len) :
    w'.extractLsb' lo len = w.extractLsb' lo len :=
  (extract_of_and (and_eq_of_agree agree) full).trans (extract_of_and rfl full).symm

theorem fieldDR_agree (full : m.extractLsb' 9 3 = BitVec.allOnes 3) : fieldDR w' = fieldDR w :=
  congrArg BitVec.toFin (extract_agree agree full)

theorem fieldSR1_agree (full : m.extractLsb' 6 3 = BitVec.allOnes 3) : fieldSR1 w' = fieldSR1 w :=
  congrArg BitVec.toFin (extract_agree agree full)

theorem fieldSR2_agree (full : m.extractLsb' 0 3 = BitVec.allOnes 3) : fieldSR2 w' = fieldSR2 w :=
  congrArg BitVec.toFin (extract_agree agree full)

theorem fieldVect_agree (full : m.extractLsb' 0 8 = BitVec.allOnes 8) : fieldVect w' = fieldVect w :=
  extract_agree agree full

/-- The common argument of R87: two words agree under `m`, the bits `k` that select the form are among them, and the
form reads the same operands from both. -/
theorem decode_agree {k c : Word} {form : Word → Instr} (selected : ∀ {v : Word}, v &&& k = c → decode v = form v)
    (within : m &&& k = k) (h : w &&& k = c) (operands : form w' = form w) : decode w' = decode w := by
  rw [selected h, selected ((and_eq_of_agree_within agree within).trans h), operands]

end Agree

/-! ### The unassigned opcodes (R168, R169) -/

/-- A word is its opcode's number and its bits 11:0. -/
theorem formatNONE_opcodeOf (w : Word) : formatNONE (opcodeOf w) (fieldLow w) = w := by
  rw [formatNONE, opcodeOf, code_opcodeAt, fieldLow,
    BitVec.extractLsb'_append_extractLsb'_eq_extractLsb' (by decide), extract_all]

theorem encode_rti_fieldLow {w : Word} (h : w &&& 0xF000 = 0x8000) : encode (.rti (fieldLow w)) = w := by
  have opcode : opcodeOf w = .rti := opcodeOf_of_and h (by decide) (by decide)
  rw [encode, ← opcode, formatNONE_opcodeOf]

theorem encode_res_fieldLow {w : Word} (h : w &&& 0xF000 = 0xD000) : encode (.res (fieldLow w)) = w := by
  have opcode : opcodeOf w = .res := opcodeOf_of_and h (by decide) (by decide)
  rw [encode, ← opcode, formatNONE_opcodeOf]

namespace Machine

theorem exec_rti (low : BitVec 12) (s : State) :
    exec (.rti low) s = .next (raise (.illegalOpcode (encode (.rti low))) s) := rfl

theorem exec_res (low : BitVec 12) (s : State) :
    exec (.res low) s = .next (raise (.illegalOpcode (encode (.res low))) s) := rfl

/-- A word of opcode RTI raises IllegalOpcode of the word itself and does nothing else. -/
theorem exec_decode_rti {w : Word} (h : w &&& 0xF000 = 0x8000) (s : State) :
    exec (decode w) s = .next (raise (.illegalOpcode w) s) := by
  rw [decode_rti h, exec_rti, encode_rti_fieldLow h]

/-- A word of opcode RES raises IllegalOpcode of the word itself and does nothing else. -/
theorem exec_decode_res {w : Word} (h : w &&& 0xF000 = 0xD000) (s : State) :
    exec (decode w) s = .next (raise (.illegalOpcode w) s) := by
  rw [decode_res h, exec_res, encode_res_fieldLow h]

end Machine
end Sys2Proof
end

section
open Sys2Proof Sys2Proof.Machine

/-- Settles O7: in each of the six forms the used bits hold the bits that select the form and every operand field; for
RTI and RES the fault records the word. -/
theorem unusedBitsAreIgnored : Obligations.UnusedBitsAreIgnored := by
  refine ⟨?addReg, ?andReg, ?notReg, ?jmp, ?jsrr, ?trap, ?unassigned⟩
  case addReg =>
    intro w w' h agree
    exact decode_agree agree decode_addReg (by decide) h
      (by rw [fieldDR_agree agree (by decide), fieldSR1_agree agree (by decide), fieldSR2_agree agree (by decide)])
  case andReg =>
    intro w w' h agree
    exact decode_agree agree decode_andReg (by decide) h
      (by rw [fieldDR_agree agree (by decide), fieldSR1_agree agree (by decide), fieldSR2_agree agree (by decide)])
  case notReg =>
    intro w w' h agree
    exact decode_agree agree decode_notReg (by decide) h
      (by rw [fieldDR_agree agree (by decide), fieldSR1_agree agree (by decide)])
  case jmp =>
    intro w w' h agree
    exact decode_agree agree decode_jmp (by decide) h (by rw [fieldSR1_agree agree (by decide)])
  case jsrr =>
    intro w w' h agree
    exact decode_agree agree decode_jsrr (by decide) h (by rw [fieldSR1_agree agree (by decide)])
  case trap =>
    intro w w' h agree
    exact decode_agree agree decode_trap (by decide) h (by rw [fieldVect_agree agree (by decide)])
  case unassigned =>
    rintro w s (isRti | isRes)
    · exact ⟨_, exec_decode_rti isRti s, raise_fault s _⟩
    · exact ⟨_, exec_decode_res isRes s, raise_fault s _⟩

end

section
/-! PROOFS about what one step can do (40_cycle.md R110, R114, R116): which states have no step, what every instruction
answers, and the invariant `State.Inv`, kept by way of a stronger one that holds in the middle of an instruction. -/
namespace Sys2Proof.Machine

/-! ### Every instruction answers a next state -/

/-- PUTS and PUTSP are the two whose answer rests on a proof, that of `stringWalk_ends` (log entry 10). -/
theorem exec_next (i : Instr) (s : State) : ∃ t, exec i s = .next t := by
  cases i with
  | trapPuts => exact (putString_next putsWord_stops (trapEntry s)).imp fun _ h => h.1
  | trapPutsp => exact (putString_next putspWord_stops (trapEntry s)).imp fun _ h => h.1
  | _ => exact ⟨_, rfl⟩

/-! ### The machines that have no step (R110) -/

/-- The step of a machine that is not stopped answers a next state, but for a wait on an open and empty input (R233). -/
theorem step_of_running {s : State} (running : s.run = .running) (noFault : s.fault = none) :
    (∃ t, step s = .next t) ∨
    (step s = .fault .heldForInput ∧ (∃ w, s.held w) ∧ s.cin.bytes = [] ∧ s.cin.closes = false) := by
  cases wait : s.wait with
  | none =>
    rw [step_of_canStep ⟨running, noFault, wait⟩]
    exact .inl (exec_next _ _)
  | some w =>
    have held : s.held w := ⟨running, noFault, wait⟩
    rw [step_of_held held]
    rcases resume_cases w s with ⟨_, _, -, goesOn⟩ | ⟨-, -, goesOn⟩ | ⟨empty, isOpen, stays⟩
    · exact .inl ⟨_, goesOn⟩
    · exact .inl ⟨_, goesOn⟩
    · exact .inr ⟨stays, ⟨w, held⟩, empty, isOpen⟩

/-- `halted` is the answer for a normal end (R116 (a)) and for nothing else. -/
theorem step_halted_iff {s : State} : step s = .fault .halted ↔ s.normalEnd := by
  refine ⟨fun h => ?_, step_of_normalEnd⟩
  cases fault : s.fault with
  | some r => simp [step_of_fault fault] at h
  | none =>
    cases run : s.run with
    | halted => exact ⟨run, fault⟩
    | running =>
      rcases step_of_running run fault with ⟨_, next⟩ | ⟨held, -⟩
      · cases next.symm.trans h
      · cases held.symm.trans h

/-! ### The invariant in the middle of an instruction -/

/-- One flag and canonical memory, in a machine that is neither stopped nor waiting: what an instruction finds after the
fetch and keeps up to its last effect. -/
structure State.MidStep (s : State) : Prop where
  oneFlag : s.cond = 0x0001 ∨ s.cond = 0x0002 ∨ s.cond = 0x0004
  memWf   : Memory.wf s.mem
  running : s.run = .running
  noFault : s.fault = none
  noWait  : s.wait = none

/-- COND as a result sets it holds one flag (R26, R27). -/
theorem condOf_oneFlag (v : Word) : condOf v = 0x0001 ∨ condOf v = 0x0002 ∨ condOf v = 0x0004 := by
  unfold condOf
  split
  · exact .inr (.inl rfl)
  · split
    · exact .inr (.inr rfl)
    · exact .inl rfl

namespace State

theorem Inv.midStep {s : State} (inv : s.Inv) (can : s.canStep) : s.MidStep :=
  have ⟨running, noFault, noWait⟩ := can
  ⟨inv.oneFlag, inv.memWf, running, noFault, noWait⟩

/-- A GETC or IN in progress, as its wait ends. -/
theorem Inv.midStep_of_held {s : State} {w : Wait} (inv : s.Inv) (held : s.held w) : (s.setWait none).MidStep :=
  have ⟨running, noFault, _⟩ := held
  ⟨inv.oneFlag, inv.memWf, running, noFault, rfl⟩

namespace MidStep
variable {s t : State} (h : s.MidStep)
include h

/-! What an instruction does before it ends. -/

theorem setReg (r : RegId) (v : Word) : (s.setReg r v).MidStep := { h with }

theorem setPc (a : Word) : (s.setPc a).MidStep := { h with }

theorem setCin (cin : ConsoleIn) : (s.setCin cin).MidStep := { h with }

theorem setcc (v : Word) : (setcc v s).MidStep := { h with oneFlag := condOf_oneFlag v }

theorem writeDest (dr : RegId) (v : Word) : (writeDest dr v s).MidStep := (h.setReg dr v).setcc v

theorem memWrite (a v : Word) : (memWrite a v s).MidStep := { h with memWf := State.wf_poke a v h.memWf }

theorem serviced (k : Serviced s t) : t.MidStep where
  oneFlag := k.cond ▸ h.oneFlag
  memWf := k.memWf h.memWf
  running := k.run.trans h.running
  noFault := k.fault.trans h.noFault
  noWait := k.wait.trans h.noWait

theorem out (bytes : List Byte) : (s.out bytes).MidStep := h.serviced (.out s bytes)

theorem memRead (a : Word) : (memRead a s).2.MidStep := h.serviced (.memRead a s)

theorem fetch : (fetch s).2.MidStep := (h.memRead s.pc).setPc _

theorem loadFrom (dr : RegId) (a : Word) : (loadFrom dr a s).MidStep := (h.memRead a).writeDest dr _

theorem trapEntry : (trapEntry s).MidStep := h.setReg 7 s.pc

theorem finish (w : Wait) (c : Byte) : (w.finish c s).MidStep := by
  cases w with
  | getc => exact h.writeDest 0 _
  | inEcho => exact (h.out [c]).writeDest 0 _

/-! The four ways it ends: the boundary before the next fetch, a halt, a fault, a wait. -/

theorem inv : s.Inv where
  oneFlag := h.oneFlag
  memWf := h.memWf
  oneEnd := fun _ => h.noFault
  waitRuns := fun _ => ⟨h.running, h.noFault⟩

theorem halt_inv : s.halt.Inv :=
  { h with oneEnd := fun _ => h.noFault, waitRuns := fun waits => absurd h.noWait waits }

theorem raise_inv (r : FaultRecord) : (raise r s).Inv :=
  { h with
    oneEnd := fun halted => nomatch h.running.symm.trans halted
    waitRuns := fun waits => absurd h.noWait waits }

theorem setWait_inv (w : Option Wait) : (s.setWait w).Inv :=
  { h with oneEnd := fun _ => h.noFault, waitRuns := fun _ => ⟨h.running, h.noFault⟩ }

/-! The instructions. -/

theorem awaitByte_inv (w : Wait) : (awaitByte w s).Inv := by
  rcases awaitByte_cases w s with ⟨c, rest, -, e⟩ | ⟨-, -, e⟩ | ⟨-, -, e⟩ <;> rw [e]
  · exact ((h.setCin _).finish w c).inv
  · exact h.raise_inv _
  · exact h.setWait_inv _

theorem putString_inv {word : Word → List Byte × Bool} (stops : (word 0x0000).2 = false)
    (e : putString word s = .next t) : t.Inv := by
  obtain ⟨u, next, serviced⟩ := putString_next stops s
  cases next.symm.trans e
  exact (h.serviced serviced).inv

theorem execBr_inv (n z p : Bool) (off9 : BitVec 9) (e : execBr n z p off9 s = .next t) : t.Inv := by
  cases e
  split
  · exact (h.setPc _).inv
  · exact h.inv

theorem exec_inv {i : Instr} (e : exec i s = .next t) : t.Inv := by
  cases i with
  | br n z p off9 => exact h.execBr_inv n z p off9 e
  | addReg | addImm | andReg | andImm | notReg | lea => cases e; exact (h.writeDest _ _).inv
  | ld | ldr => cases e; exact (h.loadFrom _ _).inv
  | ldi => cases e; exact ((h.memRead _).loadFrom _ _).inv
  | st | str => cases e; exact (h.memWrite _ _).inv
  | sti => cases e; exact ((h.memRead _).memWrite _ _).inv
  | jmp => cases e; exact (h.setPc _).inv
  | jsr | jsrr => cases e; exact (h.trapEntry.setPc _).inv
  | rti | res => cases e; exact h.raise_inv _
  | trapGetc => cases e; exact h.trapEntry.awaitByte_inv _
  | trapOut => cases e; exact (h.trapEntry.out _).inv
  | trapPuts => exact h.trapEntry.putString_inv putsWord_stops e
  | trapIn => cases e; exact (h.trapEntry.out _).awaitByte_inv _
  | trapPutsp => exact h.trapEntry.putString_inv putspWord_stops e
  | trapHalt => cases e; exact (h.trapEntry.out _).halt_inv
  | trapUnassigned => cases e; exact h.trapEntry.raise_inv _

end MidStep
end State

/-- A wait that is over goes on with the read of the byte. -/
theorem resume_next {w : Wait} {s t : State} (e : resume w s = .next t) : t = awaitByte w (s.setWait none) := by
  unfold resume at e
  split at e <;> cases e <;> rfl

/-- An instruction boundary leads to an instruction boundary, or to an end. -/
theorem step_keeps_inv {s t : State} (inv : s.Inv) (e : step s = .next t) : t.Inv := by
  rcases step_next e with ⟨can, dispatched⟩ | ⟨w, held, goesOn⟩
  · exact (inv.midStep can).fetch.exec_inv dispatched
  · rw [resume_next goesOn]
    exact (inv.midStep_of_held held).awaitByte_inv w

end Sys2Proof.Machine
end

section
open Sys2Proof.Machine

/-- Settles O38: what an instruction does before its last effect keeps `State.MidStep`, and each of its four ways to end
(the next boundary, a halt, a fault, a wait) leads from there to the invariant. -/
theorem everyStepKeepsTheMachineWellFormed : Obligations.EveryStepKeepsTheMachineWellFormed :=
  fun _ _ => step_keeps_inv

/-- Settles O3: a recorded fault is answered first, whatever `run` is (log entry 13); without one, `halted` is answered
exactly for a halted machine, since no instruction and no wait answers it. -/
theorem stoppedMachineHasNoStep : Obligations.StoppedMachineHasNoStep := by
  intro s
  cases fault : s.fault with
  | some r => simp [step_of_fault fault]
  | none => simp [step_halted_iff, State.normalEnd, fault]

end

section
/-! PROOFS about ADD, AND and NOT (41_operate.md R120 to R125): the forms that the mode bit selects with an immediate, the
write of a destination register in the words of the rules (R27, R28), the word that each operation computes, and the five
statements assembled from them. -/
namespace Sys2Proof

/-! ### The immediate forms that R83 and R85 select -/

section Forms
variable {w : Word}

theorem decode_addImm (h : w &&& 0xF020 = 0x1020) : decode w = .addImm (fieldDR w) (fieldSR1 w) (fieldImm5 w) := by
  have opcode : opcodeOf w = .add := opcodeOf_of_and h (by decide) (by decide)
  have mode : w.getLsbD 5 = true := getLsbD_of_and h (by decide)
  simp only [decode, opcode, mode, if_true]

theorem decode_andImm (h : w &&& 0xF020 = 0x5020) : decode w = .andImm (fieldDR w) (fieldSR1 w) (fieldImm5 w) := by
  have opcode : opcodeOf w = .and := opcodeOf_of_and h (by decide) (by decide)
  have mode : w.getLsbD 5 = true := getLsbD_of_and h (by decide)
  simp only [decode, opcode, mode, if_true]

end Forms

namespace Machine
open Claims

/-! ### The write of a destination register (R27, R28) -/

/-- Bit 15 of a word, by the word's value (R10). -/
theorem getLsbD_15_eq (v : Word) : v.getLsbD 15 = decide (0x8000 ≤ v.toNat) := BitVec.msb_eq_decide v

/-- The flags as the model sets them are the flags of R27. -/
theorem condOf_eq_flagsOf (v : Word) : condOf v = flagsOf v := by
  simp only [condOf, flagsOf, getLsbD_15_eq, decide_eq_true_eq, condZ, condN, condP]

/-- `x[DR] <- v; setcc(v)` has exactly the effect of an instruction with a destination. -/
theorem writeDest_resultIn (dr : RegId) (v : Word) (s : State) : ResultIn dr v s (writeDest dr v s) := by
  rw [writeDest_eq]
  refine ⟨?dest, condOf_eq_flagsOf v, ?others, rfl, fun _ => rfl, rfl, rfl, rfl, rfl, rfl⟩
  case dest => simp
  case others =>
    intro q hq
    simp [hq]

/-! ### The words that the operations compute -/

/-- A word plus a sign-extended field is the sum of their signed readings, modulo 2^16 (R9, R11). -/
theorem add_sext {b : Nat} (x : Word) (f : BitVec b) : x + sext f = plus x f := by
  rw [plus, BitVec.ofInt_add, BitVec.ofInt_toInt]
  rfl

/-- A sign-extended field, bit by bit: its own bits, then copies of its highest (R11). -/
theorem getLsbD_sext {b : Nat} (f : BitVec b) {k : Nat} (hk : k < 16) :
    (sext f).getLsbD k = f.getLsbD (if k < b then k else b - 1) := by
  rw [sext, BitVec.getLsbD_signExtend, decide_eq_true hk, Bool.true_and, BitVec.msb_eq_getLsbD_last]
  exact (apply_ite f.getLsbD _ _ _).symm

/-- The complement of a word by its value (R124). -/
theorem not_eq_sub (x : Word) : ~~~x = BitVec.ofNat 16 (0xFFFF - x.toNat) := by
  bv_omega

/-! ### The five meanings, each a write of its destination -/

theorem exec_addReg (dr sr1 sr2 : RegId) (s : State) :
    exec (.addReg dr sr1 sr2) s = .next (writeDest dr (s.getReg sr1 + s.getReg sr2) s) := rfl

theorem exec_addImm (dr sr1 : RegId) (imm5 : BitVec 5) (s : State) :
    exec (.addImm dr sr1 imm5) s = .next (writeDest dr (s.getReg sr1 + sext imm5) s) := rfl

theorem exec_andReg (dr sr1 sr2 : RegId) (s : State) :
    exec (.andReg dr sr1 sr2) s = .next (writeDest dr (s.getReg sr1 &&& s.getReg sr2) s) := rfl

theorem exec_andImm (dr sr1 : RegId) (imm5 : BitVec 5) (s : State) :
    exec (.andImm dr sr1 imm5) s = .next (writeDest dr (s.getReg sr1 &&& sext imm5) s) := rfl

theorem exec_notReg (dr sr1 : RegId) (s : State) :
    exec (.notReg dr sr1) s = .next (writeDest dr (~~~ s.getReg sr1) s) := rfl

end Machine
end Sys2Proof
end

section
open Sys2Proof Sys2Proof.Machine

/-- Settles O9: the word written is the sum of two words, which `BitVec` takes modulo 2^16. -/
theorem addRegisterWritesTheSum : Obligations.AddRegisterWritesTheSum := by
  refine ⟨fun _ => decode_addReg, fun dr sr1 sr2 s => ⟨_, exec_addReg dr sr1 sr2 s, ?_⟩⟩
  rw [← BitVec.add_def]
  exact writeDest_resultIn dr _ s

/-- Settles O10: adding the sign-extended immediate is adding its signed reading. -/
theorem addImmediateWritesTheSum : Obligations.AddImmediateWritesTheSum := by
  refine ⟨fun _ => decode_addImm, fun dr sr1 imm5 s => ⟨_, exec_addImm dr sr1 imm5 s, ?_⟩⟩
  rw [← add_sext]
  exact writeDest_resultIn dr _ s

/-- Settles O11: the word written is the conjunction, which `BitVec` takes bit by bit. -/
theorem andRegisterWritesTheConjunction : Obligations.AndRegisterWritesTheConjunction := by
  refine ⟨fun _ => decode_andReg, fun dr sr1 sr2 s =>
    ⟨_, _, exec_andReg dr sr1 sr2 s, writeDest_resultIn dr _ s, ?bits⟩⟩
  case bits => exact fun _ _ => BitVec.getLsbD_and

/-- Settles O12: the mask is the immediate with copies of its bit 4 above. -/
theorem andImmediateWritesTheConjunction : Obligations.AndImmediateWritesTheConjunction := by
  refine ⟨fun _ => decode_andImm, fun dr sr1 imm5 s =>
    ⟨_, _, exec_andImm dr sr1 imm5 s, writeDest_resultIn dr _ s, ?bits⟩⟩
  case bits =>
    intro k hk
    rw [BitVec.getLsbD_and, getLsbD_sext imm5 hk]

/-- Settles O13: the complement of a word is 0xFFFF minus the word. -/
theorem notWritesTheComplement : Obligations.NotWritesTheComplement := by
  refine ⟨fun _ => decode_notReg, fun dr sr1 s => ⟨_, exec_notReg dr sr1 s, ?_⟩⟩
  rw [← not_eq_sub]
  exact writeDest_resultIn dr _ s

end

section
/-! PROOFS about the control transfers (42_control.md R130 to R135): the forms BR and JSR, BR's test in the words of R88,
the four meanings and the effect of a link, PC after every instruction, and the five statements assembled from them. -/
namespace Sys2Proof

/-! ### The forms BR and JSR -/

section Forms
variable {w : Word}

theorem decode_br (h : w &&& 0xF000 = 0x0000) :
    decode w = .br (w.getLsbD 11) (w.getLsbD 10) (w.getLsbD 9) (fieldOff9 w) := by
  have opcode : opcodeOf w = .br := opcodeOf_of_and h (by decide) (by decide)
  simp only [decode, opcode]

theorem decode_jsr (h : w &&& 0xF800 = 0x4800) : decode w = .jsr (fieldOff11 w) := by
  have opcode : opcodeOf w = .jsr := opcodeOf_of_and h (by decide) (by decide)
  have mode : w.getLsbD 11 = true := getLsbD_of_and h (by decide)
  simp only [decode, opcode, mode, if_true]

end Forms

namespace Machine
open Claims

/-! ### BR's test (R88, R130) -/

/-- Three flags meet the condition bits where a bit of both is set, place by place. -/
theorem and_condBits_ne_zero (flags : BitVec 3) (n z p : Bool) :
    (flags &&& condBits n z p != 0) = ((flags.getLsbD 2 && n) || (flags.getLsbD 1 && z) || (flags.getLsbD 0 && p)) := by
  revert flags n z p
  decide

/-- The test by the flags of COND: N is bit 2, Z bit 1, P bit 0 (R25). -/
theorem branchTaken_eq (n z p : Bool) (cond : Word) :
    branchTaken n z p cond = ((cond.getLsbD 2 && n) || (cond.getLsbD 1 && z) || (cond.getLsbD 0 && p)) := by
  rw [branchTaken, and_condBits_ne_zero]
  simp

theorem branchTaken_none (cond : Word) : branchTaken false false false cond = false := by
  simp [branchTaken_eq]

/-- R91: with all three condition bits, any one flag is met. -/
theorem branchTaken_all {cond : Word} (oneFlag : cond = 0x0001 ∨ cond = 0x0002 ∨ cond = 0x0004) :
    branchTaken true true true cond = true := by
  rcases oneFlag with rfl | rfl | rfl <;> decide

/-! ### The four meanings -/

/-- R7 takes the PC, then PC the target: JSR and JSRR. -/
def State.linkTo (s : State) (target : Word) : State := (s.setReg 7 s.pc).setPc target

@[simp] theorem State.linkTo_pc (s : State) (target : Word) : (s.linkTo target).pc = target := rfl

theorem State.linkTo_linkedTo (s : State) (target : Word) : LinkedTo target s (s.linkTo target) := by
  refine ⟨?link, rfl, ?others, rfl, fun _ => rfl, rfl, rfl, rfl, rfl, rfl⟩
  case link => simp [State.linkTo]
  case others =>
    intro q hq
    simp [State.linkTo, hq]

theorem pcRelative_eq_plus {b : Nat} (off : BitVec b) (s : State) : pcRelative off s = plus s.pc off :=
  add_sext s.pc off

theorem exec_br (n z p : Bool) (off9 : BitVec 9) (s : State) :
    exec (.br n z p off9) s = .next (s.setPc (if branchTaken n z p s.cond then plus s.pc off9 else s.pc)) := by
  rw [apply_ite s.setPc, ← pcRelative_eq_plus]
  rfl

theorem exec_jmp (base : RegId) (s : State) : exec (.jmp base) s = .next (s.setPc (s.getReg base)) := rfl

theorem exec_jsr (off11 : BitVec 11) (s : State) : exec (.jsr off11) s = .next (s.linkTo (plus s.pc off11)) := by
  rw [← pcRelative_eq_plus]
  rfl

/-- BaseR is read after R7 is written, so BaseR = R7 reads the link (D11). -/
theorem exec_jsrr (base : RegId) (s : State) :
    exec (.jsrr base) s = .next (s.linkTo (if base = 7 then s.pc else s.getReg base)) := by
  rw [← State.setReg_getReg]
  rfl

/-! ### PC after an instruction (R135) -/

@[simp] theorem loadFrom_pc (dr : RegId) (a : Word) (s : State) : (loadFrom dr a s).pc = s.pc :=
  memRead_pc a s

/-- A byte, the end of the input and a wait all leave PC (R161, R164). -/
@[simp] theorem awaitByte_pc (w : Wait) (s : State) : (awaitByte w s).pc = s.pc := by
  rcases awaitByte_cases w s with ⟨c, rest, -, e⟩ | ⟨-, -, e⟩ | ⟨-, -, e⟩ <;> rw [e]
  · cases w <;> rfl
  · rfl
  · rfl

theorem putString_pc {word : Word → List Byte × Bool} (stops : (word 0x0000).2 = false) {s t : State}
    (e : putString word s = .next t) : t.pc = s.pc := by
  obtain ⟨u, next, serviced⟩ := putString_next stops s
  cases next.symm.trans e
  exact serviced.pc

/-- On the state after the fetch from `a`, every instruction leaves PC where the list of R135 says. -/
theorem exec_pc {i : Instr} {a : Word} {s t : State} (fetched : s.pc = a + 1) (e : exec i s = .next t) :
    t.pc = pcAfter i a s := by
  cases i with
  | br n z p off9 =>
    rw [exec_br, branchTaken_eq, fetched] at e
    cases e
    rfl
  | jmp => cases e; rfl
  | jsr off11 =>
    rw [exec_jsr, fetched] at e
    cases e
    rfl
  | jsrr base =>
    rw [exec_jsrr, fetched] at e
    cases e
    rfl
  | trapPuts => exact (putString_pc putsWord_stops e).trans fetched
  | trapPutsp => exact (putString_pc putspWord_stops e).trans fetched
  | ld | ldr | ldi | sti | trapGetc | trapIn => cases e; simp [pcAfter, fetched]
  | addReg | addImm | andReg | andImm | notReg | lea | st | str | rti | res | trapOut | trapHalt | trapUnassigned =>
    cases e; exact fetched

/-- The list of R135 reads registers and COND alone, which a fetch leaves. -/
theorem pcAfter_fetch (i : Instr) (a : Word) (s : State) : pcAfter i a (fetch s).2 = pcAfter i a s := by
  cases i with
  | br | jmp | jsrr => simp [pcAfter]
  | _ => rfl

end Machine
end Sys2Proof
end

section
open Sys2Proof Sys2Proof.Machine

/-- Settles O14: BR writes PC alone, and its test is met bit by bit; no condition bit meets no flag, and three meet the
one flag that the invariant gives. -/
theorem branchGoesWhereAFlagMatches : Obligations.BranchGoesWhereAFlagMatches := by
  refine ⟨fun _ => decode_br, ?general, ?never, ?always⟩
  case general =>
    intro n z p off9 s
    rw [exec_br, branchTaken_eq]
    rfl
  case never =>
    intro off9 s
    rw [exec_br, branchTaken_none]
    rfl
  case always =>
    intro off9 s inv
    rw [exec_br, branchTaken_all inv.oneFlag]
    rfl

/-- Settles O15: the meaning of JMP is the write of PC. -/
theorem jumpGoesToTheBaseRegister : Obligations.JumpGoesToTheBaseRegister :=
  ⟨fun _ => decode_jmp, exec_jmp⟩

/-- Settles O16: a link to the signed sum. -/
theorem jsrLinksAndGoesToTheOffset : Obligations.JsrLinksAndGoesToTheOffset :=
  ⟨fun _ => decode_jsr, fun off11 s => ⟨_, exec_jsr off11 s, s.linkTo_linkedTo _⟩⟩

/-- Settles O17: a link to the register as it reads once R7 is written. -/
theorem jsrrLinksThenReadsTheBase : Obligations.JsrrLinksThenReadsTheBase :=
  ⟨fun _ => decode_jsrr, fun base s => ⟨_, exec_jsrr base s, s.linkTo_linkedTo _⟩⟩

/-- Settles O44: the fetch leaves PC at A + 1 and all that the list of R135 reads as it was, and the instruction takes PC
on from there. -/
theorem pcAfterEachInstruction : Obligations.PcAfterEachInstruction := by
  intro s t e
  rw [exec_pc (fetch_pc s) e, pcAfter_fetch]

end

section
/-! PROOFS about the loads and stores (43_load_store.md R140 to R147): the forms that their opcodes select, the effect of
a load and of a store in the words of the rules, the load of the keyboard status, the seven meanings, and the seven
statements assembled from them. -/
namespace Sys2Proof

/-! ### The forms that R83 selects -/

section Forms
variable {w : Word}

theorem decode_ld (h : w &&& 0xF000 = 0x2000) : decode w = .ld (fieldDR w) (fieldOff9 w) := by
  have opcode : opcodeOf w = .ld := opcodeOf_of_and h (by decide) (by decide)
  simp only [decode, opcode]

theorem decode_ldi (h : w &&& 0xF000 = 0xA000) : decode w = .ldi (fieldDR w) (fieldOff9 w) := by
  have opcode : opcodeOf w = .ldi := opcodeOf_of_and h (by decide) (by decide)
  simp only [decode, opcode]

theorem decode_ldr (h : w &&& 0xF000 = 0x6000) : decode w = .ldr (fieldDR w) (fieldSR1 w) (fieldOff6 w) := by
  have opcode : opcodeOf w = .ldr := opcodeOf_of_and h (by decide) (by decide)
  simp only [decode, opcode]

theorem decode_lea (h : w &&& 0xF000 = 0xE000) : decode w = .lea (fieldDR w) (fieldOff9 w) := by
  have opcode : opcodeOf w = .lea := opcodeOf_of_and h (by decide) (by decide)
  simp only [decode, opcode]

theorem decode_st (h : w &&& 0xF000 = 0x3000) : decode w = .st (fieldDR w) (fieldOff9 w) := by
  have opcode : opcodeOf w = .st := opcodeOf_of_and h (by decide) (by decide)
  simp only [decode, opcode]

theorem decode_sti (h : w &&& 0xF000 = 0xB000) : decode w = .sti (fieldDR w) (fieldOff9 w) := by
  have opcode : opcodeOf w = .sti := opcodeOf_of_and h (by decide) (by decide)
  simp only [decode, opcode]

theorem decode_str (h : w &&& 0xF000 = 0x7000) : decode w = .str (fieldDR w) (fieldSR1 w) (fieldOff6 w) := by
  have opcode : opcodeOf w = .str := opcodeOf_of_and h (by decide) (by decide)
  simp only [decode, opcode]

end Forms

namespace Machine
open Claims

/-! ### The effects of a load and of a store -/

/-- What a load changes beyond the effect of its read is DR and COND (R140 to R142). -/
theorem loadFrom_resultIn (dr : RegId) (a : Word) (s : State) :
    ResultIn dr (memRead a s).1 (memRead a s).2 (loadFrom dr a s) :=
  writeDest_resultIn dr _ _

/-- `MemWrite(a, v)` has exactly the effect of a store (R56). -/
theorem memWrite_storedAt (a v : Word) (s : State) : StoredAt a v s (memWrite a v s) := by
  rw [memWrite_eq]
  refine ⟨?stored, ?others, fun _ => rfl, rfl, rfl, rfl, rfl, rfl, rfl, rfl⟩
  case stored => simp
  case others =>
    intro b hb
    simp [hb]

/-! ### The load of the keyboard status -/

/-- A read of KBSR answers ready or not ready (R53 to R55). -/
theorem memRead_kbsr_status (s : State) : (memRead kbsr s).1 = 0x8000 ∨ (memRead kbsr s).1 = 0x0000 := by
  rw [memRead_kbsr]
  exact kbdPoll_status _ s

/-- Ready is a negative word, not ready is zero (R27, R140). -/
theorem loadFrom_kbsr (dr : RegId) (s : State) :
    ((loadFrom dr kbsr s).getReg dr = 0x8000 ∧ (loadFrom dr kbsr s).cond = 0x0004) ∨
    ((loadFrom dr kbsr s).getReg dr = 0x0000 ∧ (loadFrom dr kbsr s).cond = 0x0002) := by
  obtain ⟨loaded, flags, -⟩ := loadFrom_resultIn dr kbsr s
  rw [loaded, flags]
  rcases memRead_kbsr_status s with ready | notReady
  · rw [ready]
    exact .inl ⟨rfl, rfl⟩
  · rw [notReady]
    exact .inr ⟨rfl, rfl⟩

/-! ### The seven meanings, each a load, a write of its destination or a store -/

theorem baseOffset_eq_plus (base : RegId) (off6 : BitVec 6) (s : State) :
    baseOffset base off6 s = plus (s.getReg base) off6 :=
  add_sext (s.getReg base) off6

theorem exec_ld (dr : RegId) (off9 : BitVec 9) (s : State) :
    exec (.ld dr off9) s = .next (loadFrom dr (plus s.pc off9) s) := by
  rw [← pcRelative_eq_plus]
  rfl

theorem exec_ldi {off9 : BitVec 9} {s p : State} {ptr : Word} (dr : RegId)
    (pointer : memRead (plus s.pc off9) s = (ptr, p)) : exec (.ldi dr off9) s = .next (loadFrom dr ptr p) := by
  rw [← pcRelative_eq_plus] at pointer
  rw [exec, execLdi, pointer]

theorem exec_ldr (dr base : RegId) (off6 : BitVec 6) (s : State) :
    exec (.ldr dr base off6) s = .next (loadFrom dr (plus (s.getReg base) off6) s) := by
  rw [← baseOffset_eq_plus]
  rfl

theorem exec_lea (dr : RegId) (off9 : BitVec 9) (s : State) :
    exec (.lea dr off9) s = .next (writeDest dr (plus s.pc off9) s) := by
  rw [← pcRelative_eq_plus]
  rfl

theorem exec_st (sr : RegId) (off9 : BitVec 9) (s : State) :
    exec (.st sr off9) s = .next (memWrite (pcRelative off9 s) (s.getReg sr) s) := rfl

/-- SR is read after the pointer, whose read leaves every register. -/
theorem exec_sti {off9 : BitVec 9} {s p : State} {ptr : Word} (sr : RegId)
    (pointer : memRead (pcRelative off9 s) s = (ptr, p)) :
    exec (.sti sr off9) s = .next (memWrite ptr (s.getReg sr) p) := by
  rw [← memRead_getReg (pcRelative off9 s) s sr, exec, execSti, pointer]

theorem exec_str (sr base : RegId) (off6 : BitVec 6) (s : State) :
    exec (.str sr base off6) s = .next (memWrite (baseOffset base off6 s) (s.getReg sr) s) := rfl

end Machine
end Sys2Proof
end

section
open Sys2Proof Sys2Proof.Machine

/-- Settles O18: a load at the signed sum, which at KBSR loads one of the two words that a poll leaves there. -/
theorem ldLoadsFromThePcRelativeAddress : Obligations.LdLoadsFromThePcRelativeAddress := by
  refine ⟨fun _ => decode_ld, fun dr off9 s => ⟨_, exec_ld dr off9 s, loadFrom_resultIn dr _ s, ?status⟩⟩
  case status =>
    intro atKbsr
    rw [atKbsr]
    exact loadFrom_kbsr dr s

/-- Settles O19: a load at the pointer, from the state that the pointer's read left. -/
theorem ldiLoadsThroughThePointer : Obligations.LdiLoadsThroughThePointer :=
  ⟨fun _ => decode_ldi, fun dr _ _ p ptr pointer => ⟨_, exec_ldi dr pointer, loadFrom_resultIn dr ptr p⟩⟩

/-- Settles O20: a load at the signed sum of base and offset. -/
theorem ldrLoadsFromBasePlusOffset : Obligations.LdrLoadsFromBasePlusOffset :=
  ⟨fun _ => decode_ldr, fun dr base off6 s => ⟨_, exec_ldr dr base off6 s, loadFrom_resultIn dr _ s⟩⟩

/-- Settles O21: the address itself is the word written, from the state before, so no read comes between. -/
theorem leaWritesTheAddressAndItsFlags : Obligations.LeaWritesTheAddressAndItsFlags :=
  ⟨fun _ => decode_lea, fun dr off9 s => ⟨_, exec_lea dr off9 s, writeDest_resultIn dr _ s⟩⟩

/-- Settles O22: one store, at the signed sum. -/
theorem stStoresAtThePcRelativeAddress : Obligations.StStoresAtThePcRelativeAddress :=
  ⟨fun _ => decode_st, fun sr off9 s =>
    ⟨pcRelative_eq_plus off9 s, _, exec_st sr off9 s, memWrite_storedAt _ _ s⟩⟩

/-- Settles O23: one store at the pointer, on the state that the pointer's read left. -/
theorem stiStoresThroughThePointer : Obligations.StiStoresThroughThePointer :=
  ⟨fun _ => decode_sti, fun sr off9 s p ptr pointer =>
    ⟨pcRelative_eq_plus off9 s, _, exec_sti sr pointer, memWrite_storedAt ptr _ p⟩⟩

/-- Settles O24: one store, at the signed sum of base and offset. -/
theorem strStoresAtBasePlusOffset : Obligations.StrStoresAtBasePlusOffset :=
  ⟨fun _ => decode_str, fun sr base off6 s =>
    ⟨baseOffset_eq_plus base off6 s, _, exec_str sr base off6 s, memWrite_storedAt _ _ s⟩⟩

end

section
/-! PROOFS about the entry common to every TRAP, OUT, HALT and the faults raised at dispatch (44_trap.md R160, R162, R166
to R169): the vector that a TRAP word names, the effect of the entry in the words of R160, the meanings, and the five
statements assembled from them. -/
namespace Sys2Proof

/-! ### The vector of a TRAP word (R89) -/

/-- A word under the mask of TRAP's used bits names the vector of the masked word. -/
theorem decode_trapWord {w c : Word} (h : w &&& 0xF0FF = c) (isTrap : c &&& 0xF000 = 0xF000) :
    decode w = decodeTrap (fieldVect c) := by
  have opcode : w &&& 0xF000 = 0xF000 := by
    rw [← h, BitVec.and_assoc] at isTrap
    exact isTrap
  rw [decode_trap opcode, fieldVect, extract_of_and h (by decide), fieldVect]

theorem decodeTrap_unassigned {v : Byte} (h : vectorUnassigned v = true) : decodeTrap v = .trapUnassigned v := by
  rw [decodeTrap, (serviceOf_eq_none v).mpr h]

/-- The vector as R89 compares it: the value of the word's low byte. -/
theorem fieldVect_toNat (w : Word) : (fieldVect w).toNat = (w &&& 0x00FF).toNat := by
  rw [fieldVect, BitVec.extractLsb'_toNat, BitVec.toNat_and, Nat.shiftRight_zero]
  exact (Nat.and_two_pow_sub_one_eq_mod w.toNat 8).symm

/-! ### The words of RTI and RES (R168, R169) -/

theorem encode_rti (low : BitVec 12) : encode (.rti low) = 0x8#4 ++ low := by
  have code : Opcode.rti.code = 0x8#4 := by decide
  rw [encode, formatNONE, code]

theorem encode_res (low : BitVec 12) : encode (.res low) = 0xD#4 ++ low := by
  have code : Opcode.res.code = 0xD#4 := by decide
  rw [encode, formatNONE, code]

namespace Machine
open Claims

/-! ### The entry (R160) and the three meanings it begins -/

/-- A TRAP that leaves the registers as its entry does, and COND, PC and `wait` too, changes no register but R7. -/
theorem onlyR7_of_regs {s t : State} (regs : t.regs = (trapEntry s).regs) (cond : t.cond = s.cond) (pc : t.pc = s.pc)
    (wait : t.wait = s.wait) : OnlyR7 s t := by
  have reg (q : RegId) : t.getReg q = if q = 7 then s.pc else s.getReg q := by
    rw [← State.setReg_getReg, State.getReg, regs]
    rfl
  exact ⟨reg 7, fun q other => (reg q).trans (if_neg other), cond, pc, wait⟩

theorem trapEntry_getReg {q : RegId} (other : q ≠ 7) (s : State) : (trapEntry s).getReg q = s.getReg q := by
  rw [trapEntry_eq, State.setReg_getReg, if_neg other]

theorem exec_trapOut (s : State) : exec .trapOut s = .next ((trapEntry s).out [lowByte (s.getReg 0)]) := by
  have r0 : (trapEntry s).getReg 0 = s.getReg 0 := trapEntry_getReg (by decide) s
  rw [← r0]
  rfl

theorem exec_trapHalt (s : State) : exec .trapHalt s = .next ((trapEntry s).out Config.haltMsg).halt := rfl

theorem exec_trapUnassigned (vect : Byte) (s : State) :
    exec (.trapUnassigned vect) s = .next (raise (.badTrapVector vect) (trapEntry s)) := rfl

end Machine
end Sys2Proof
end

section
open Sys2Proof Sys2Proof.Machine

/-- Settles O26: the entry, then one byte of output; R0 is not the register that the entry writes. -/
theorem outWritesTheLowByte : Obligations.OutWritesTheLowByte :=
  ⟨fun _ h => decode_trapWord h (by decide), fun s =>
    ⟨_, exec_trapOut s, rfl, onlyR7_of_regs rfl rfl rfl rfl, fun _ => rfl, rfl, rfl, rfl⟩⟩

/-- Settles O34: the entry, the announcement and the stop, which without a fault is a normal end. -/
theorem haltAnnouncesAndStops : Obligations.HaltAnnouncesAndStops :=
  ⟨fun _ h => decode_trapWord h (by decide), fun s =>
    ⟨_, exec_trapHalt s, rfl, rfl, onlyR7_of_regs rfl rfl rfl rfl, fun _ => rfl, rfl, rfl,
      fun noFault => step_of_normalEnd ⟨rfl, noFault⟩⟩⟩

/-- Settles O35: a vector outside R89's table selects no service; the fault is raised on the state that the entry left. -/
theorem unassignedVectorLinksThenFaults : Obligations.UnassignedVectorLinksThenFaults := by
  refine ⟨?decodes, fun vect s =>
    ⟨_, exec_trapUnassigned vect s, rfl, onlyR7_of_regs rfl rfl rfl rfl, fun _ => rfl, rfl, rfl, rfl⟩⟩
  case decodes =>
    intro w isTrap outside
    have unassigned : vectorUnassigned (fieldVect w) = true := by
      simpa [vectorUnassigned, fieldVect_toNat] using outside
    rw [decode_trap isTrap, decodeTrap_unassigned unassigned, fieldVect]

/-- Settles O36: from the word by `exec_decode_rti`, from bits 11:0 by the encoding that the fault records. -/
theorem rtiRaisesIllegalOpcode : Obligations.RtiRaisesIllegalOpcode :=
  ⟨fun _ => decode_rti, fun _ s h => exec_decode_rti h s, fun low s => by rw [exec_rti, encode_rti, raise]⟩

/-- Settles O37: as RTI, by the lemmas about RES. -/
theorem resRaisesIllegalOpcode : Obligations.ResRaisesIllegalOpcode :=
  ⟨fun _ => decode_res, fun _ s h => exec_decode_res h s, fun low s => by rw [exec_res, encode_res, raise]⟩

end

section
/-! PROOFS about the fetch from KBSR (20_memory.md R63): the instruction is the status that the poll leaves, and its step is
the poll, the increment of PC and at most a fault. -/
namespace Sys2Proof.Machine

/-- The fetch from KBSR takes the status just polled. -/
theorem fetch_kbsr {s : State} {arrived : Bool} (atKbsr : s.pc = kbsr) (draw : Config.pollArrived s.polls = arrived) :
    fetch s = ((kbdPoll arrived s).peek kbsr, (kbdPoll arrived s).setPc (kbsr + 1)) := by
  rw [fetch, atKbsr, memRead_kbsr, draw, kbdPoll_pc, atKbsr]

/-- Not ready, as an instruction, is the BR that never branches (R91). -/
theorem exec_notReady (s : State) : exec (decode 0x0000) s = .next s := by
  have isBr : decode 0x0000 = .br false false false 0 := by decide
  rw [isBr, exec_br, branchTaken_none]
  rfl

/-- Ready, as an instruction, is RTI, which faults (R168). -/
theorem exec_ready (s : State) : exec (decode 0x8000) s = .next (raise (.illegalOpcode 0x8000) s) :=
  exec_decode_rti (by decide) s

section FetchingKbsr
variable {s : State} {arrived : Bool} (can : s.canStep) (atKbsr : s.pc = kbsr)
  (draw : Config.pollArrived s.polls = arrived)
include can atKbsr draw

theorem step_kbsr :
    step s = exec (decode ((kbdPoll arrived s).peek kbsr)) ((kbdPoll arrived s).setPc (kbsr + 1)) := by
  rw [step_of_canStep can, State.current_of_canStep can, fetch_kbsr atKbsr draw]

/-- The two outcomes of a step that fetches from KBSR, with the fault that each leaves in the one frame. -/
theorem step_kbsr_cases : ∃ fault, step s = .next { (kbdPoll arrived s).setPc (kbsr + 1) with fault := fault } ∧
    ((fault = none ∧ (s.cin.bytes = [] ∨ arrived = false)) ∨
     (fault = some (.illegalOpcode 0x8000) ∧ arrived = true ∧ ∃ c rest, s.cin.bytes = c :: rest)) := by
  rw [step_kbsr can atKbsr draw]
  rcases kbdPoll_cases arrived s with ⟨c, rest, found, pending⟩ | quiet
  · have ready : (kbdPoll arrived s).peek kbsr = 0x8000 := found ▸ kbdPoll_ready_status pending
    rw [ready]
    exact ⟨_, exec_ready _, .inr ⟨rfl, found, c, rest, pending⟩⟩
  · have noFault : ((kbdPoll arrived s).setPc (kbsr + 1)).fault = none := by simp [can.2.1]
    rw [kbdPoll_notReady_status quiet, exec_notReady]
    exact ⟨_, rfl, .inl ⟨noFault, quiet⟩⟩

end FetchingKbsr

end Sys2Proof.Machine
end

section
open Sys2Proof.Machine

/-- Settles O53: the frame is the poll's own, said once for both outcomes; what they leave in the device slots and the
input is what the poll leaves there (R54, R55). -/
theorem fetchFromKbsrRunsTheStatus : Obligations.FetchFromKbsrRunsTheStatus := by
  intro s running noFault noWait atKbsr
  obtain ⟨fault, stepped, outcome⟩ := step_kbsr_cases ⟨running, noFault, noWait⟩ atKbsr rfl
  refine ⟨_, stepped, rfl, (kbdPoll_wait _ s).trans noWait, kbdPoll_getReg _ s, kbdPoll_cond _ s, kbdPoll_run _ s,
    kbdPoll_cout _ s, fun _ notKbsr notKbdr => kbdPoll_peek notKbsr notKbdr _ s, outcome.imp ?notReady ?ready⟩
  case notReady =>
    rintro ⟨isNone, quiet⟩
    exact ⟨isNone, kbdPoll_notReady_status quiet, kbdPoll_notReady_peek quiet kbdr_ne_kbsr, kbdPoll_notReady_cin quiet⟩
  case ready =>
    rintro ⟨isIllegal, found, c, rest, pending⟩
    rw [found]
    exact ⟨c, rest, pending, isIllegal, kbdPoll_ready_status pending, kbdPoll_ready_data pending,
      kbdPoll_ready_cin pending⟩

end

section
/-! PROOFS about PUTS and PUTSP on strings clear of KBSR (44_trap.md R163, R165): what the walk writes for words that go on
and one that ends it, what each service writes for a word, and the two statements assembled from them. -/
namespace Sys2Proof.Machine
open Claims

/-! ### The walk over a string -/

theorem add_ofNat_succ (a : Word) (k : Nat) : a + BitVec.ofNat 16 (k + 1) = a + 1 + BitVec.ofNat 16 k := by
  rw [Nat.add_comm, BitVec.ofNat_add, BitVec.add_assoc]
  rfl

/-- What the walk does at one address, away from KBSR. -/
theorem stringWalk_succ {word : Word → List Byte × Bool} {a : Word} (notKbsr : a ≠ kbsr) (fuel : Nat) (s : State) :
    stringWalk word (fuel + 1) a s =
      if (word (s.peek a)).2 then stringWalk word fuel (a + 1) (s.out (word (s.peek a)).1)
      else some (s.out (word (s.peek a)).1) := by
  rw [stringWalk, memRead_pure notKbsr]

/-- A walk that ends, over `m` words that go on and one that ends it, has written what the service writes for each and
done nothing else, however much fuel it had. -/
theorem stringWalk_string {word : Word → List Byte × Bool} {m fuel : Nat} {a : Word} {s t : State}
    {bytes : Nat → List Byte} {last : List Byte} (ends : stringWalk word fuel a s = some t)
    (clear : ∀ k, k ≤ m → a + BitVec.ofNat 16 k ≠ kbsr)
    (goesOn : ∀ k, k < m → word (s.peek (a + BitVec.ofNat 16 k)) = (bytes k, true))
    (stops : word (s.peek (a + BitVec.ofNat 16 m)) = (last, false)) :
    t = s.out ((List.range m).flatMap bytes ++ last) := by
  induction fuel generalizing m a s bytes with
  | zero => cases ends
  | succ fuel ih =>
    have first : a + BitVec.ofNat 16 0 = a := BitVec.add_zero a
    rw [stringWalk_succ (first ▸ clear 0 (Nat.zero_le m))] at ends
    cases m with
    | zero =>
      have here : word (s.peek a) = (last, false) := first ▸ stops
      rw [here] at ends
      exact (Option.some.inj ends).symm
    | succ m =>
      have here : word (s.peek a) = (bytes 0, true) := first ▸ goesOn 0 (Nat.succ_pos m)
      rw [here] at ends
      have later := ih (bytes := fun k => bytes (k + 1)) ends
        (fun k hk => add_ofNat_succ a k ▸ clear (k + 1) (Nat.succ_le_succ hk))
        (fun k hk => add_ofNat_succ a k ▸ goesOn (k + 1) (Nat.succ_lt_succ hk)) (add_ofNat_succ a m ▸ stops)
      rw [later, State.out_out, List.range_succ_eq_map, List.flatMap_cons, List.flatMap_map, List.append_assoc]

/-- A service on a string clear of KBSR, after the entry: `m` words from R0 on that go on and one that ends the walk. -/
theorem putString_string {word : Word → List Byte × Bool} (zeroStops : (word 0x0000).2 = false) {s : State} {m : Nat}
    {bytes : Nat → List Byte} {last : List Byte}
    (clear : ∀ k, k ≤ m → s.getReg 0 + BitVec.ofNat 16 k ≠ kbsr)
    (goesOn : ∀ k, k < m → word (s.peek (s.getReg 0 + BitVec.ofNat 16 k)) = (bytes k, true))
    (stops : word (s.peek (s.getReg 0 + BitVec.ofNat 16 m)) = (last, false)) :
    putString word (trapEntry s) = .next ((trapEntry s).out ((List.range m).flatMap bytes ++ last)) := by
  have r0 : (trapEntry s).getReg 0 = s.getReg 0 := trapEntry_getReg (by decide) s
  obtain ⟨t, answer, -⟩ := putString_next zeroStops (trapEntry s)
  rw [answer]
  rw [putString, r0] at answer
  split at answer
  · rename_i ends
    cases answer
    rw [State.flush_eq, stringWalk_string ends clear goesOn stops]
  · cases answer

/-! ### What each service writes for a word -/

theorem putsWord_zero : putsWord 0x0000 = ([], false) := rfl

theorem putsWord_char {w : Word} (h : w ≠ 0x0000) : putsWord w = ([lowByte w], true) := if_neg h

theorem putspWord_lowZero {w : Word} (low : lowByte w = 0) : putspWord w = ([], false) := if_pos low

theorem putspWord_highZero {w : Word} (low : lowByte w ≠ 0) (high : highByte w = 0) :
    putspWord w = ([lowByte w], false) := by rw [putspWord, if_neg low, if_pos high]

theorem putspWord_chars {w : Word} (low : lowByte w ≠ 0) (high : highByte w ≠ 0) :
    putspWord w = ([lowByte w, highByte w], true) := by rw [putspWord, if_neg low, if_neg high]

/-! ### Packed bytes by words -/

theorem packedByte_even (s : State) (a : Word) (k : Nat) :
    packedByte s a (2 * k) = lowByte (s.peek (a + BitVec.ofNat 16 k)) := by
  rw [packedByte, Nat.mul_div_cancel_left k Nat.two_pos, Nat.mul_mod_right]
  rfl

theorem packedByte_odd (s : State) (a : Word) (k : Nat) :
    packedByte s a (2 * k + 1) = highByte (s.peek (a + BitVec.ofNat 16 k)) := by
  rw [packedByte, Nat.mul_add_div Nat.two_pos, Nat.mul_add_mod]
  rfl

/-- The numbers below `2 * m`, pair by pair. -/
theorem map_range_two_mul {α : Type} (f : Nat → α) (m : Nat) :
    (List.range (2 * m)).map f = (List.range m).flatMap fun k => [f (2 * k), f (2 * k + 1)] := by
  induction m with
  | zero => rfl
  | succ m ih => simp [Nat.mul_succ, List.range_succ, ih]

/-! ### The two services -/

theorem exec_trapPuts (s : State) : exec .trapPuts s = putString putsWord (trapEntry s) := rfl

theorem exec_trapPutsp (s : State) : exec .trapPutsp s = putString putspWord (trapEntry s) := rfl

/-- PUTSP over `m` words without a zero byte and one that has one: the packed bytes of the `m` words, and what it writes
for the last. -/
theorem exec_trapPutsp_string {s : State} {m : Nat} {last : List Byte}
    (clear : ∀ k, k ≤ m → s.getReg 0 + BitVec.ofNat 16 k ≠ kbsr)
    (nonzero : ∀ j, j < 2 * m → packedByte s (s.getReg 0) j ≠ 0)
    (stops : putspWord (s.peek (s.getReg 0 + BitVec.ofNat 16 m)) = (last, false)) :
    exec .trapPutsp s =
      .next ((trapEntry s).out ((List.range (2 * m)).map (packedByte s (s.getReg 0)) ++ last)) := by
  rw [exec_trapPutsp, map_range_two_mul]
  refine putString_string putspWord_stops clear (fun k hk => ?goesOn) stops
  have low := nonzero (2 * k) (by omega)
  have high := nonzero (2 * k + 1) (by omega)
  rw [packedByte_even] at low ⊢
  rw [packedByte_odd] at high ⊢
  exact putspWord_chars low high

end Sys2Proof.Machine
end

section
open Sys2Proof.Machine

/-- Settles O28: each of the `n` words goes on with its low byte, and the zero word ends the walk with none. -/
theorem putsWritesAZeroTerminatedString : Obligations.PutsWritesAZeroTerminatedString := by
  intro s n clear chars zero
  have stops : putsWord (s.peek (s.getReg 0 + BitVec.ofNat 16 n)) = ([], false) := by rw [zero, putsWord_zero]
  rw [exec_trapPuts, putString_string putsWord_stops clear (fun k hk => putsWord_char (chars k hk)) stops,
    List.append_nil, ← List.map_eq_flatMap]
  rfl

/-- Settles O33: with `n` even the first zero byte is a low one and its word adds nothing; with `n` odd it is a high one
and its word adds the low byte before it. -/
theorem putspWritesAZeroTerminatedPackedString : Obligations.PutspWritesAZeroTerminatedPackedString := by
  intro s n clear nonzero zero
  have clearWord (k : Nat) (hk : 2 * k ≤ n) : s.getReg 0 + BitVec.ofNat 16 k ≠ kbsr :=
    Nat.mul_div_cancel_left k Nat.two_pos ▸ clear (2 * k) hk
  obtain ⟨m, rfl | rfl⟩ : ∃ m, n = 2 * m ∨ n = 2 * m + 1 := ⟨n / 2, by omega⟩
  · rw [packedByte_even] at zero
    rw [exec_trapPutsp_string (fun k hk => clearWord k (by omega)) nonzero (putspWord_lowZero zero), List.append_nil]
    rfl
  · have low := nonzero (2 * m) (Nat.lt_succ_self _)
    rw [packedByte_even] at low
    rw [packedByte_odd] at zero
    rw [exec_trapPutsp_string (fun k hk => clearWord k (by omega)) (fun j hj => nonzero j (by omega))
      (putspWord_highZero low zero), List.range_succ, List.map_append, List.map_singleton, packedByte_even]
    rfl

end

section
/-! PROOFS about the decoder and the encoder (30_encoding.md R80 to R90): the fields of each format, the fields of a
word put back in its format, the opcode that an instruction is decoded from, and the four statements assembled from
them. -/
namespace Sys2Proof

/-! ### What the decoder reads from each format (R81, R82, R85) -/

/-- A bit that lies in the high part of a concatenation. -/
theorem getLsbD_append_high {n m : Nat} (x : BitVec n) (y : BitVec m) {k : Nat} (h : m ≤ k) :
    (x ++ y).getLsbD k = x.getLsbD (k - m) := by
  rw [BitVec.getLsbD_append, if_neg (Nat.not_lt.mpr h)]

/-- A bit that lies in the low part of a concatenation. -/
theorem getLsbD_append_low {n m : Nat} (x : BitVec n) (y : BitVec m) {k : Nat} (h : k < m) :
    (x ++ y).getLsbD k = y.getLsbD k := by
  rw [BitVec.getLsbD_append, if_pos h]

section Formats
variable (o : Opcode) (a b c : RegId)

theorem fields_formatOPR : fieldDR (formatOPR o a b c) = a ∧ fieldSR1 (formatOPR o a b c) = b ∧
    fieldSR2 (formatOPR o a b c) = c ∧ (formatOPR o a b c).getLsbD 5 = false := by
  simp (disch := decide) only [fieldDR, fieldSR1, fieldSR2, regField, regBits_toFin, formatOPR, extract_append_high,
    extract_append_low, extract_all, getLsbD_append_high, getLsbD_append_low, Nat.reduceSub, BitVec.reduceGetLsb,
    and_self]

theorem fields_formatOPI (imm5 : BitVec 5) : fieldDR (formatOPI o a b imm5) = a ∧ fieldSR1 (formatOPI o a b imm5) = b ∧
    fieldImm5 (formatOPI o a b imm5) = imm5 ∧ (formatOPI o a b imm5).getLsbD 5 = true := by
  simp (disch := decide) only [fieldDR, fieldSR1, fieldImm5, regField, regBits_toFin, formatOPI, extract_append_high,
    extract_append_low, extract_all, getLsbD_append_high, getLsbD_append_low, Nat.reduceSub, BitVec.reduceGetLsb,
    and_self]

theorem fields_formatUNA : fieldDR (formatUNA o a b) = a ∧ fieldSR1 (formatUNA o a b) = b := by
  simp (disch := decide) only [fieldDR, fieldSR1, regField, regBits_toFin, formatUNA, extract_append_high,
    extract_append_low, extract_all, Nat.reduceSub, and_self]

theorem fields_formatBRF (n z p : Bool) (off9 : BitVec 9) : (formatBRF o n z p off9).getLsbD 11 = n ∧
    (formatBRF o n z p off9).getLsbD 10 = z ∧ (formatBRF o n z p off9).getLsbD 9 = p ∧
    fieldOff9 (formatBRF o n z p off9) = off9 := by
  simp (disch := decide) only [fieldOff9, formatBRF, condBits, extract_append_low, extract_all, getLsbD_append_high,
    getLsbD_append_low, Nat.reduceSub, BitVec.getLsbD_ofBool, decide_true, Bool.true_and, and_self]

theorem fieldSR1_formatJMPF : fieldSR1 (formatJMPF o a) = a := by
  simp (disch := decide) only [fieldSR1, regField, regBits_toFin, formatJMPF, extract_append_high, extract_append_low,
    extract_all, Nat.reduceSub]

theorem fields_formatJSRF (off11 : BitVec 11) : (formatJSRF o off11).getLsbD 11 = true ∧
    fieldOff11 (formatJSRF o off11) = off11 := by
  simp (disch := decide) only [fieldOff11, formatJSRF, extract_append_low, extract_all, getLsbD_append_high,
    getLsbD_append_low, Nat.reduceSub, BitVec.reduceGetLsb, and_self]

theorem fields_formatJSRRF : (formatJSRRF o a).getLsbD 11 = false ∧ fieldSR1 (formatJSRRF o a) = a := by
  simp (disch := decide) only [fieldSR1, regField, regBits_toFin, formatJSRRF, extract_append_high, extract_append_low,
    extract_all, getLsbD_append_high, getLsbD_append_low, Nat.reduceSub, BitVec.reduceGetLsb, and_self]

theorem fields_formatPC9 (off9 : BitVec 9) : fieldDR (formatPC9 o a off9) = a ∧
    fieldOff9 (formatPC9 o a off9) = off9 := by
  simp (disch := decide) only [fieldDR, fieldOff9, regField, regBits_toFin, formatPC9, extract_append_high,
    extract_append_low, extract_all, Nat.reduceSub, and_self]

theorem fields_formatBO6 (off6 : BitVec 6) : fieldDR (formatBO6 o a b off6) = a ∧ fieldSR1 (formatBO6 o a b off6) = b ∧
    fieldOff6 (formatBO6 o a b off6) = off6 := by
  simp (disch := decide) only [fieldDR, fieldSR1, fieldOff6, regField, regBits_toFin, formatBO6, extract_append_high,
    extract_append_low, extract_all, Nat.reduceSub, and_self]

theorem fieldVect_formatTRP (vect : Byte) : fieldVect (formatTRP o vect) = vect := by
  simp (disch := decide) only [fieldVect, formatTRP, extract_append_low, extract_all]

theorem fieldLow_formatNONE (low : BitVec 12) : fieldLow (formatNONE o low) = low := by
  simp (disch := decide) only [fieldLow, formatNONE, extract_append_low, extract_all]

end Formats

/-! ### Decoding an encoding -/

theorem decode_formatTRP (vect : Byte) : decode (formatTRP .trap vect) = decodeTrap vect := by
  simp only [decode, opcodeOf_formatTRP, fieldVect_formatTRP]

theorem decode_encode {i : Instr} (wf : i.wellFormed = true) : decode (encode i) = i := by
  cases i with
  | br => simp only [encode, decode, opcodeOf_formatBRF, fields_formatBRF]
  | addReg | andReg =>
    simp only [encode, decode, opcodeOf_formatOPR, fields_formatOPR, Bool.false_eq_true, if_false]
  | addImm | andImm => simp only [encode, decode, opcodeOf_formatOPI, fields_formatOPI, if_true]
  | ld | ldi | lea | st | sti => simp only [encode, decode, opcodeOf_formatPC9, fields_formatPC9]
  | ldr | str => simp only [encode, decode, opcodeOf_formatBO6, fields_formatBO6]
  | jsr => simp only [encode, decode, opcodeOf_formatJSRF, fields_formatJSRF, if_true]
  | jsrr => simp only [encode, decode, opcodeOf_formatJSRRF, fields_formatJSRRF, Bool.false_eq_true, if_false]
  | jmp => simp only [encode, decode, opcodeOf_formatJMPF, fieldSR1_formatJMPF]
  | notReg => simp only [encode, decode, opcodeOf_formatUNA, fields_formatUNA]
  | rti | res => simp only [encode, decode, opcodeOf_formatNONE, fieldLow_formatNONE]
  | trapGetc | trapOut | trapPuts | trapIn | trapPutsp | trapHalt =>
    simp only [encode, decode_formatTRP, decodeTrap, serviceOf_vector]
  | trapUnassigned vect => exact (decode_formatTRP vect).trans (decodeTrap_unassigned wf)

/-! ### Encoding a decoding: each format filled with the fields of a word is that word, but for the unused bits -/

/-- A bit of a word as a field of width 1. -/
theorem ofBool_getLsbD (w : Word) (k : Nat) : BitVec.ofBool (w.getLsbD k) = w.extractLsb' k 1 := by
  ext i hi
  obtain rfl : i = 0 := by omega
  simp

/-- Concatenations agree under a mask when their parts do under its parts. -/
theorem and_append_congr {n m : Nat} {x x' mx : BitVec n} {y y' my : BitVec m} (high : x &&& mx = x' &&& mx)
    (low : y &&& my = y' &&& my) : (x ++ y) &&& (mx ++ my) = (x' ++ y') &&& (mx ++ my) := by
  rw [BitVec.and_append, BitVec.and_append, high, low]

/-- Bits that a mask clears agree, whatever they are. -/
theorem and_zero_congr {n : Nat} (x x' : BitVec n) : x &&& 0#n = x' &&& 0#n := by
  rw [BitVec.and_zero, BitVec.and_zero]

/-- The bits of a register selector are its field (R81). -/
theorem regBits_regField (w : Word) (lo : Nat) : regBits (regField w lo) = w.extractLsb' lo 3 := rfl

section Refill
variable {w : Word} {o : Opcode} (opcode : opcodeOf w = o)
include opcode

theorem code_of_opcodeOf : o.code = w.extractLsb' 12 4 := by
  rw [← opcode, opcodeOf, code_opcodeAt]

theorem formatNONE_refill : formatNONE o (fieldLow w) = w := opcode ▸ formatNONE_opcodeOf w

theorem formatBRF_refill :
    formatBRF o (w.getLsbD 11) (w.getLsbD 10) (w.getLsbD 9) (fieldOff9 w) = w := by
  simp (disch := decide) only [formatBRF, condBits, fieldOff9, code_of_opcodeOf opcode, ofBool_getLsbD,
    BitVec.extractLsb'_append_extractLsb'_eq_extractLsb', extract_all]

theorem formatPC9_refill : formatPC9 o (fieldDR w) (fieldOff9 w) = w := by
  simp (disch := decide) only [formatPC9, fieldDR, fieldOff9, code_of_opcodeOf opcode, regBits_regField,
    BitVec.extractLsb'_append_extractLsb'_eq_extractLsb', extract_all]

theorem formatBO6_refill : formatBO6 o (fieldDR w) (fieldSR1 w) (fieldOff6 w) = w := by
  simp (disch := decide) only [formatBO6, fieldDR, fieldSR1, fieldOff6, code_of_opcodeOf opcode, regBits_regField,
    BitVec.extractLsb'_append_extractLsb'_eq_extractLsb', extract_all]

theorem formatOPI_refill (mode : w.getLsbD 5 = true) :
    formatOPI o (fieldDR w) (fieldSR1 w) (fieldImm5 w) = w := by
  have modeBit : 0b1#1 = w.extractLsb' 5 1 := by rw [← ofBool_getLsbD, mode]; rfl
  simp (disch := decide) only [formatOPI, modeBit, fieldDR, fieldSR1, fieldImm5, code_of_opcodeOf opcode,
    regBits_regField, BitVec.extractLsb'_append_extractLsb'_eq_extractLsb', extract_all]

theorem formatJSRF_refill (mode : w.getLsbD 11 = true) : formatJSRF o (fieldOff11 w) = w := by
  have modeBit : 0b1#1 = w.extractLsb' 11 1 := by rw [← ofBool_getLsbD, mode]; rfl
  simp (disch := decide) only [formatJSRF, modeBit, fieldOff11, code_of_opcodeOf opcode,
    BitVec.extractLsb'_append_extractLsb'_eq_extractLsb', extract_all]

/-! With unused bits (R87), the refilled format agrees with the word under the mask of the used ones. -/

theorem formatOPR_refill (mode : w.getLsbD 5 = false) :
    formatOPR o (fieldDR w) (fieldSR1 w) (fieldSR2 w) &&& 0xFFE7 = w &&& 0xFFE7 := by
  have modeBit : 0b0#1 = w.extractLsb' 5 1 := by rw [← ofBool_getLsbD, mode]; rfl
  have fields : w.extractLsb' 12 4 ++ w.extractLsb' 9 3 ++ w.extractLsb' 6 3 ++ w.extractLsb' 5 1 ++
      w.extractLsb' 3 2 ++ w.extractLsb' 0 3 = w := by
    simp (disch := decide) only [BitVec.extractLsb'_append_extractLsb'_eq_extractLsb', extract_all]
  have mask : (0xFFE7 : Word) = 0xF#4 ++ 7#3 ++ 7#3 ++ 1#1 ++ 0#2 ++ 7#3 := by decide
  conv => rhs; rw [← fields]
  simp only [formatOPR, modeBit, fieldDR, fieldSR1, fieldSR2, regBits_regField, code_of_opcodeOf opcode, mask]
  exact and_append_congr (and_append_congr rfl (and_zero_congr _ _)) rfl

theorem formatUNA_refill : formatUNA o (fieldDR w) (fieldSR1 w) &&& 0xFFC0 = w &&& 0xFFC0 := by
  have fields : w.extractLsb' 12 4 ++ w.extractLsb' 9 3 ++ w.extractLsb' 6 3 ++ w.extractLsb' 0 6 = w := by
    simp (disch := decide) only [BitVec.extractLsb'_append_extractLsb'_eq_extractLsb', extract_all]
  have mask : (0xFFC0 : Word) = 0xF#4 ++ 7#3 ++ 7#3 ++ 0#6 := by decide
  conv => rhs; rw [← fields]
  simp only [formatUNA, fieldDR, fieldSR1, regBits_regField, code_of_opcodeOf opcode, mask]
  exact and_append_congr rfl (and_zero_congr _ _)

theorem formatJMPF_refill : formatJMPF o (fieldSR1 w) &&& 0xF1C0 = w &&& 0xF1C0 := by
  have fields : w.extractLsb' 12 4 ++ w.extractLsb' 9 3 ++ w.extractLsb' 6 3 ++ w.extractLsb' 0 6 = w := by
    simp (disch := decide) only [BitVec.extractLsb'_append_extractLsb'_eq_extractLsb', extract_all]
  have mask : (0xF1C0 : Word) = 0xF#4 ++ 0#3 ++ 7#3 ++ 0#6 := by decide
  conv => rhs; rw [← fields]
  simp only [formatJMPF, fieldSR1, regBits_regField, code_of_opcodeOf opcode, mask]
  exact and_append_congr (and_append_congr (and_append_congr rfl (and_zero_congr _ _)) rfl) (and_zero_congr _ _)

theorem formatJSRRF_refill (mode : w.getLsbD 11 = false) : formatJSRRF o (fieldSR1 w) &&& 0xF9C0 = w &&& 0xF9C0 := by
  have modeBit : 0b0#1 = w.extractLsb' 11 1 := by rw [← ofBool_getLsbD, mode]; rfl
  have fields : w.extractLsb' 12 4 ++ w.extractLsb' 11 1 ++ w.extractLsb' 9 2 ++ w.extractLsb' 6 3 ++
      w.extractLsb' 0 6 = w := by
    simp (disch := decide) only [BitVec.extractLsb'_append_extractLsb'_eq_extractLsb', extract_all]
  have mask : (0xF9C0 : Word) = 0xF#4 ++ 1#1 ++ 0#2 ++ 7#3 ++ 0#6 := by decide
  conv => rhs; rw [← fields]
  simp only [formatJSRRF, modeBit, fieldSR1, regBits_regField, code_of_opcodeOf opcode, mask]
  exact and_append_congr (and_append_congr (and_append_congr rfl (and_zero_congr _ _)) rfl) (and_zero_congr _ _)

theorem formatTRP_refill : formatTRP o (fieldVect w) &&& 0xF0FF = w &&& 0xF0FF := by
  have fields : w.extractLsb' 12 4 ++ w.extractLsb' 8 4 ++ w.extractLsb' 0 8 = w := by
    simp (disch := decide) only [BitVec.extractLsb'_append_extractLsb'_eq_extractLsb', extract_all]
  have mask : (0xF0FF : Word) = 0xF#4 ++ 0#4 ++ 0xFF#8 := by decide
  conv => rhs; rw [← fields]
  simp only [formatTRP, fieldVect, code_of_opcodeOf opcode, mask]
  exact and_append_congr (and_append_congr rfl (and_zero_congr _ _)) rfl

end Refill

/-! ### The sub-dispatch of TRAP (R89) -/

/-- The sub-dispatch keeps the vector. -/
theorem encode_decodeTrap (v : Byte) : encode (decodeTrap v) = formatTRP .trap v := by
  revert v
  decide

theorem decodeTrap_wellFormed (v : Byte) : (decodeTrap v).wellFormed = true := by
  revert v
  decide

theorem decodeTrap_usedMask (v : Byte) : (decodeTrap v).usedMask = 0xF0FF := by
  unfold decodeTrap
  split <;> rfl

theorem decodeTrap_rowOpcode (v : Byte) : Laws.EncodedOpcode.rowOpcode (decodeTrap v) = .trap := by
  unfold decodeTrap
  split <;> rfl

/-! ### Every word (R86) -/

/-- The opcode that a word decodes from is the one of its bits 15:12 (R80). -/
theorem rowOpcode_decode (w : Word) : Laws.EncodedOpcode.rowOpcode (decode w) = opcodeOf w := by
  cases opcode : opcodeOf w with
  | add | and | jsr =>
    simp only [decode, opcode]
    split <;> rfl
  | trap => simp only [decode, opcode, decodeTrap_rowOpcode]
  | _ => simp only [decode, opcode, Laws.EncodedOpcode.rowOpcode]

theorem opcodeOf_of_decode {w : Word} {i : Instr} (h : decode w = i) : opcodeOf w = Laws.EncodedOpcode.rowOpcode i := by
  rw [← rowOpcode_decode, h]

theorem decode_wellFormed (w : Word) : (decode w).wellFormed = true := by
  cases opcode : opcodeOf w with
  | add | and | jsr =>
    simp only [decode, opcode]
    split <;> rfl
  | trap => simp only [decode, opcode, decodeTrap_wellFormed]
  | _ => simp only [decode, opcode, Instr.wellFormed]

/-- By the format of the word's opcode and mode bit. -/
theorem encode_decode_agrees (w : Word) :
    encode (decode w) &&& (decode w).usedMask = w &&& (decode w).usedMask := by
  cases opcode : opcodeOf w with
  | br => simp only [decode, opcode, encode, formatBRF_refill opcode]
  | ld | ldi | lea | st | sti => simp only [decode, opcode, encode, formatPC9_refill opcode]
  | ldr | str => simp only [decode, opcode, encode, formatBO6_refill opcode]
  | not => simp only [decode, opcode, encode, Instr.usedMask, formatUNA_refill opcode]
  | jmp => simp only [decode, opcode, encode, Instr.usedMask, formatJMPF_refill opcode]
  | rti | res => simp only [decode, opcode, encode, formatNONE_refill opcode]
  | trap =>
    simp only [decode, opcode, encode_decodeTrap, decodeTrap_usedMask, formatTRP_refill opcode]
  | add | and =>
    cases mode : w.getLsbD 5 with
    | false =>
      simp only [decode, opcode, mode, Bool.false_eq_true, if_false, encode, Instr.usedMask,
        formatOPR_refill opcode mode]
    | true => simp only [decode, opcode, mode, if_true, encode, formatOPI_refill opcode mode]
  | jsr =>
    cases mode : w.getLsbD 11 with
    | false =>
      simp only [decode, opcode, mode, Bool.false_eq_true, if_false, encode, Instr.usedMask,
        formatJSRRF_refill opcode mode]
    | true => simp only [decode, opcode, mode, if_true, encode, formatJSRF_refill opcode mode]

/-! ### The illegal words (R90) -/

/-- A word's opcode by its bits 15:12 in place (R80). -/
theorem opcodeOf_iff (w : Word) (o : Opcode) : opcodeOf w = o ↔ w &&& 0xF000 = o.code ++ 0#12 := by
  have fields : w.extractLsb' 12 4 ++ w.extractLsb' 0 12 = w := by
    simp (disch := decide) only [BitVec.extractLsb'_append_extractLsb'_eq_extractLsb', extract_all]
  constructor
  · intro opcode
    have mask : (0xF000 : Word) = BitVec.allOnes 4 ++ 0#12 := by decide
    rw [← fields, mask, code_of_opcodeOf opcode]
    refine BitVec.and_append.trans ?_
    rw [BitVec.and_allOnes, BitVec.and_zero]
  · intro masked
    refine opcodeOf_of_and masked (by decide) ?_
    rw [extract_append_high _ _ _ _ (by decide), extract_all]

theorem decode_eq_rti_iff (w : Word) : (∃ low, decode w = .rti low) ↔ w &&& 0xF000 = 0x8000 := by
  have isRti : opcodeOf w = .rti ↔ w &&& 0xF000 = 0x8000 := opcodeOf_iff w .rti
  constructor
  · rintro ⟨low, h⟩
    exact isRti.mp (opcodeOf_of_decode h)
  · exact fun h => ⟨_, decode_rti h⟩

theorem decode_eq_res_iff (w : Word) : (∃ low, decode w = .res low) ↔ w &&& 0xF000 = 0xD000 := by
  have isRes : opcodeOf w = .res ↔ w &&& 0xF000 = 0xD000 := opcodeOf_iff w .res
  constructor
  · rintro ⟨low, h⟩
    exact isRes.mp (opcodeOf_of_decode h)
  · exact fun h => ⟨_, decode_res h⟩

/-- A vector outside R89's table, by the word's low byte. -/
theorem vectorUnassigned_fieldVect (w : Word) :
    vectorUnassigned (fieldVect w) = true ↔ (w &&& 0x00FF).toNat < 0x20 ∨ 0x25 < (w &&& 0x00FF).toNat := by
  simp only [vectorUnassigned, fieldVect_toNat, Bool.or_eq_true, decide_eq_true_eq]

theorem decodeTrap_unassigned_iff (v u : Byte) :
    decodeTrap v = .trapUnassigned u ↔ u = v ∧ vectorUnassigned v = true := by
  constructor
  · intro h
    have vects : formatTRP .trap v = formatTRP .trap u := by rw [← encode_decodeTrap, h, encode]
    have same : u = v := by rw [← fieldVect_formatTRP .trap u, ← vects, fieldVect_formatTRP]
    have unassigned := decodeTrap_wellFormed v
    rw [h, same] at unassigned
    exact ⟨same, unassigned⟩
  · rintro ⟨rfl, unassigned⟩
    exact decodeTrap_unassigned unassigned

theorem decode_unassigned_iff (w : Word) (v : Byte) :
    decode w = .trapUnassigned v ↔
      w &&& 0xF000 = 0xF000 ∧ v = fieldVect w ∧ vectorUnassigned (fieldVect w) = true := by
  have isTrap : opcodeOf w = .trap ↔ w &&& 0xF000 = 0xF000 := opcodeOf_iff w .trap
  constructor
  · intro h
    have trap : w &&& 0xF000 = 0xF000 := isTrap.mp (opcodeOf_of_decode h)
    rw [decode_trap trap, decodeTrap_unassigned_iff] at h
    exact ⟨trap, h⟩
  · rintro ⟨trap, h⟩
    rw [decode_trap trap, decodeTrap_unassigned_iff]
    exact h

end Sys2Proof
end

section
open Sys2Proof

/-- Settles O5: each format gives back the opcode, the mode bit and the operands that were put in it. -/
theorem decodeOfEncodeIsTheInstruction : Obligations.DecodeOfEncodeIsTheInstruction :=
  fun _ => decode_encode

/-- Settles O6: the fields of a word, put back in its format, are the word but for the unused bits. -/
theorem everyWordIsAnEncoding : Obligations.EveryWordIsAnEncoding :=
  fun w => ⟨decode_wellFormed w, encode_decode_agrees w⟩

/-- Settles O8: an instruction tells the opcode of its word, and an unassigned vector is the word's low byte. -/
theorem illegalWordsAreTheUnassignedOnes : Obligations.IllegalWordsAreTheUnassignedOnes := by
  intro w
  refine ⟨decode_eq_rti_iff w, decode_eq_res_iff w, ?unassigned⟩
  case unassigned =>
    simp only [decode_unassigned_iff, ← vectorUnassigned_fieldVect, exists_and_left, exists_eq_left]

/-- Settles O4: one word for each constructor, decoded. -/
theorem writtenWordsDecode : Obligations.WrittenWordsDecode := by
  unfold Obligations.WrittenWordsDecode
  decide

end

section
/-! PROOFS about GETC and IN (44_trap.md R161, R164; 80_host_interface.md R233): what each does before it reads, the
effect of the byte in the words of the rules, how a wait ends, and the four statements assembled from them. -/
namespace Sys2Proof.Machine
open Claims

/-! ### Before the read -/

/-- The state in which the instruction comes to its read: after the entry (R160), and after IN's prompt (R164). -/
def Wait.prepare (w : Wait) (s : State) : State :=
  match w with
  | .getc => trapEntry s
  | .inEcho => (trapEntry s).out Config.inPrompt

/-- What the instruction writes to the output before its read. -/
def Wait.prompt (w : Wait) : List Byte :=
  match w with
  | .getc => []
  | .inEcho => Config.inPrompt

/-- What the instruction writes to the output for the byte read. -/
def Wait.echo (w : Wait) (c : Byte) : List Byte := if w = .inEcho then [c] else []

theorem exec_wait (w : Wait) (s : State) : exec w.instr s = .next (awaitByte w (w.prepare s)) := by
  cases w <;> rfl

section Prepare
variable (w : Wait) (s : State)

theorem Wait.prepare_eq : w.prepare s = (trapEntry s).out w.prompt := by
  cases w with
  | getc => exact (State.out_nil _).symm
  | inEcho => rfl

theorem Wait.prepare_regs : (w.prepare s).regs = (trapEntry s).regs := by cases w <;> rfl
@[simp] theorem Wait.prepare_pc : (w.prepare s).pc = s.pc := by cases w <;> rfl
@[simp] theorem Wait.prepare_cond : (w.prepare s).cond = s.cond := by cases w <;> rfl
@[simp] theorem Wait.prepare_run : (w.prepare s).run = s.run := by cases w <;> rfl
@[simp] theorem Wait.prepare_fault : (w.prepare s).fault = s.fault := by cases w <;> rfl
@[simp] theorem Wait.prepare_wait : (w.prepare s).wait = s.wait := by cases w <;> rfl
@[simp] theorem Wait.prepare_cin : (w.prepare s).cin = s.cin := by cases w <;> rfl
@[simp] theorem Wait.prepare_cout : (w.prepare s).cout = s.cout ++ w.prompt := by rw [Wait.prepare_eq]; rfl
@[simp] theorem Wait.prepare_peek (a : Word) : (w.prepare s).peek a = s.peek a := by cases w <;> rfl

/-- The input is not looked at before the read. -/
theorem Wait.prepare_setCin (cin : ConsoleIn) : w.prepare (s.setCin cin) = (w.prepare s).setCin cin := by
  cases w <;> rfl

/-- What happens before the read changes no register but R7. -/
theorem Wait.prepare_onlyR7 : OnlyR7 s (w.prepare s) :=
  onlyR7_of_regs (w.prepare_regs s) (w.prepare_cond s) (w.prepare_pc s) (w.prepare_wait s)

end Prepare

/-! ### The byte -/

theorem Wait.finish_eq (w : Wait) (c : Byte) (s : State) :
    w.finish c s = writeDest 0 (zext16 c) (s.out (w.echo c)) := by
  cases w with
  | getc => exact congrArg (writeDest 0 (zext16 c)) (State.out_nil s).symm
  | inEcho => rfl

/-- With a byte, R0 takes it and COND its flags, after the echo. -/
theorem Wait.finish_resultIn (w : Wait) (c : Byte) (s : State) :
    ResultIn 0 (BitVec.ofNat 16 c.toNat) (s.out (w.echo c)) (w.finish c s) := by
  rw [w.finish_eq, ← zext16_eq_ofNat]
  exact writeDest_resultIn 0 _ _

/-- A byte is never negative (R27, D12). -/
theorem flagsOf_byte (c : Byte) : flagsOf (BitVec.ofNat 16 c.toNat) = if c = 0 then 0x0002 else 0x0001 := by
  revert c
  decide

/-- A result in R0 after the entry is what GETC and IN do with a byte. -/
theorem byteInR0_of_resultIn {c : Byte} {s u t : State} (result : ResultIn 0 (BitVec.ofNat 16 c.toNat) u t)
    (entered : OnlyR7 s u) (mem : SameMemory s u) (run : u.run = s.run) (fault : u.fault = s.fault) :
    ByteInR0 c s t := by
  obtain ⟨link, others, -, pc, wait⟩ := entered
  obtain ⟨r0, flags, others', pc', mem', run', fault', wait', -, -⟩ := result
  refine ⟨(others' 7 (by decide)).trans link, r0, flags.trans (flagsOf_byte c), ?others, pc'.trans pc,
    fun a => (mem' a).trans (mem a), run'.trans run, fault'.trans fault, wait'.trans wait⟩
  case others => exact fun q not0 not7 => (others' q not0).trans (others q not7)

/-! ### The three answers to the read (R233), for both instructions -/

section Answers
variable (w : Wait) {s : State}

theorem exec_wait_byte {c : Byte} {rest : List Byte} (pending : s.cin.bytes = c :: rest) :
    ∃ t, exec w.instr s = .next t ∧ ByteInR0 c s t ∧ t.cin = { s.cin with bytes := rest } ∧
      t.cout = s.cout ++ w.prompt ++ w.echo c := by
  have read : (w.prepare s).cin.bytes = c :: rest := by rw [w.prepare_cin, pending]
  have result := w.finish_resultIn c ((w.prepare s).setCin { (w.prepare s).cin with bytes := rest })
  have ⟨_, _, _, _, _, _, _, _, cin, cout⟩ := result
  refine ⟨_, exec_wait w s, ?_⟩
  rw [awaitByte_byte w read]
  refine ⟨byteInR0_of_resultIn result (w.prepare_onlyR7 s) (w.prepare_peek s) (w.prepare_run s) (w.prepare_fault s),
    cin.trans ?cin, cout.trans ?cout⟩
  case cin => simp
  case cout => simp

theorem exec_wait_closed (empty : s.cin.bytes = []) (closed : s.cin.closes = true) :
    ∃ t, exec w.instr s = .next t ∧ t.fault = some .consoleInputClosed ∧ OnlyR7 s t ∧ SameMemory s t ∧
      t.run = s.run ∧ t.cin = s.cin ∧ t.cout = s.cout ++ w.prompt := by
  rw [← w.prepare_cin s] at empty closed
  refine ⟨_, exec_wait w s, ?_⟩
  rw [awaitByte_closed w empty closed]
  exact ⟨rfl, w.prepare_onlyR7 s, w.prepare_peek s, w.prepare_run s, w.prepare_cin s, w.prepare_cout s⟩

theorem exec_wait_waits (empty : s.cin.bytes = []) (isOpen : s.cin.closes = false) :
    exec w.instr s = .next ((w.prepare s).setWait (some w)) := by
  rw [← w.prepare_cin s] at empty isOpen
  rw [exec_wait, awaitByte_waits w empty isOpen]

end Answers

/-! ### How a wait ends (R195) -/

/-- With a byte or the closing there, the instruction goes on from where it waits. -/
theorem resume_of_input (w : Wait) {s : State} (input : s.cin.bytes ≠ [] ∨ s.cin.closes = true) :
    resume w s = .next (awaitByte w (s.setWait none)) := by
  rcases consoleGet_cases s.cin with ⟨c, rest, -, answer⟩ | ⟨-, -, answer⟩ | ⟨empty, isOpen, -⟩
  · rw [resume, answer]
  · rw [resume, answer]
  · simp [empty, isOpen] at input

theorem resume_of_quiet (w : Wait) {s : State} (empty : s.cin.bytes = []) (isOpen : s.cin.closes = false) :
    resume w s = .fault .heldForInput := by
  rw [resume, consoleGet_waits empty isOpen]

/-- The step of a machine that waits with a byte or the closing there. -/
theorem step_of_input (w : Wait) {s : State} (running : s.run = .running) (noFault : s.fault = none)
    (input : s.cin.bytes ≠ [] ∨ s.cin.closes = true) :
    step (s.setWait (some w)) = .next (awaitByte w (s.setWait none)) := by
  have held : (s.setWait (some w)).held w := ⟨running, noFault, rfl⟩
  rw [step_of_held held]
  exact resume_of_input w input

theorem State.setWait_none {s : State} (noWait : s.wait = none) : s.setWait none = s := by
  rw [← noWait]
  rfl

/-! A delivery of the host (R195) changes the input alone, so it may come before the instruction or while it waits. -/

section Deliver
variable (s : State) (bytes : List Byte) (closes : Bool)

theorem State.deliver_eq : s.deliver bytes closes = s.setCin (s.deliver bytes closes).cin := by
  unfold State.deliver
  split <;> rfl

@[simp] theorem State.deliver_run : (s.deliver bytes closes).run = s.run := by rw [State.deliver_eq]; rfl
@[simp] theorem State.deliver_fault : (s.deliver bytes closes).fault = s.fault := by rw [State.deliver_eq]; rfl
@[simp] theorem State.deliver_wait : (s.deliver bytes closes).wait = s.wait := by rw [State.deliver_eq]; rfl

theorem Wait.deliver_prepare (w : Wait) : ((w.prepare s).setWait (some w)).deliver bytes closes =
    (w.prepare (s.deliver bytes closes)).setWait (some w) := by
  rcases Bool.eq_false_or_eq_true s.cin.closes with closed | isOpen
  · rw [State.deliver_closed (by simp [closed]), State.deliver_closed closed]
  · rw [State.deliver_open (by simp [isOpen]), State.deliver_open isOpen, w.prepare_setCin, State.setWait_cin,
      w.prepare_cin]
    rfl

end Deliver

/-- The two instructions that can wait. -/
theorem Wait.instr_of {i : Instr} (h : i = .trapGetc ∨ i = .trapIn) : ∃ w : Wait, i = w.instr := by
  rcases h with rfl | rfl
  · exact ⟨.getc, rfl⟩
  · exact ⟨.inEcho, rfl⟩

end Sys2Proof.Machine
end

section
open Sys2Proof Sys2Proof.Machine

/-- Settles O25: GETC writes nothing to the output, before its read or for the byte. -/
theorem getcReadsOneByte : Obligations.GetcReadsOneByte := by
  refine ⟨fun _ h => decode_trapWord h (by decide), ?byte, ?closed, ?waits⟩
  case byte =>
    intro s c rest pending
    have ⟨t, next, byte, cin, cout⟩ := exec_wait_byte .getc pending
    exact ⟨t, next, byte, cin, by simpa [Wait.prompt, Wait.echo] using cout⟩
  case closed =>
    intro s empty closed
    have ⟨t, next, fault, only, mem, run, cin, cout⟩ := exec_wait_closed .getc empty closed
    exact ⟨t, next, fault, only, mem, run, cin, by simpa [Wait.prompt] using cout⟩
  case waits => exact fun s => exec_wait_waits .getc

/-- Settles O29: IN writes its prompt before the read and echoes the byte. -/
theorem inPromptsReadsAndEchoes : Obligations.InPromptsReadsAndEchoes :=
  ⟨fun _ h => decode_trapWord h (by decide), fun _ _ _ => exec_wait_byte .inEcho, fun _ => exec_wait_closed .inEcho,
    fun _ => exec_wait_waits .inEcho⟩

/-- Settles O30: the step of a machine that waits is `resume`, which comes to the read again. -/
theorem aWaitEndsWithAByteOrTheClosingOnly : Obligations.AWaitEndsWithAByteOrTheClosingOnly := by
  intro w s held
  rw [step_of_held held]
  refine ⟨resume_of_quiet w, ?byte, ?closed, fun isOpen => s.deliver_open isOpen⟩
  case byte =>
    intro c rest pending
    refine ⟨_, resume_of_input w (.inl (by simp [pending])), ?_⟩
    rw [awaitByte_byte w (s := s.setWait none) pending]
    exact w.finish_resultIn c _
  case closed =>
    intro empty closed
    rw [resume_of_input w (.inr closed), awaitByte_closed w (s := s.setWait none) empty closed]
    rfl

/-- Settles O31: what happens before the read does not look at the input, so a delivery may come before it or after. -/
theorem aWaitChangesNothingInTheEnd : Obligations.AWaitChangesNothingInTheEnd := by
  intro i s bs closes isWait running noFault noWait empty isOpen input
  obtain ⟨w, rfl⟩ := Wait.instr_of isWait
  have delivered : (s.deliver bs closes).cin.bytes ≠ [] ∨ (s.deliver bs closes).cin.closes = true := by
    simpa [State.deliver_open isOpen, empty] using input
  refine ⟨_, _, exec_wait_waits w empty isOpen, ?later, exec_wait w _⟩
  case later =>
    rw [w.deliver_prepare, step_of_input w (by simp [running]) (by simp [noFault]) (by simpa using delivered),
      State.setWait_none (by simp [noWait])]

end

section
/-! PROOFS about the loops of PUTS and PUTSP from every state (44_trap.md R163, R165): the walk goes lap by lap as each
rule's loop does, and the two statements assembled from that and from `putString_next`; with them, that every
instruction and every step but a wait leads to a next state. -/
namespace Sys2Proof.Machine
open Claims

/-! One lap of the walk, whatever the address. -/

section Lap
variable {word : Word → List Byte × Bool} {a : Word} {s : State} {bytes : List Byte} (fuel : Nat)

theorem stringWalk_stops (here : word (memRead a s).1 = (bytes, false)) :
    stringWalk word (fuel + 1) a s = some ((memRead a s).2.out bytes) := by
  rw [stringWalk, here, if_neg Bool.false_ne_true]

theorem stringWalk_goesOn (here : word (memRead a s).1 = (bytes, true)) :
    stringWalk word (fuel + 1) a s = stringWalk word fuel (a + 1) ((memRead a s).2.out bytes) := by
  rw [stringWalk, here, if_pos rfl]

end Lap

theorem putsLoop_of_walk {fuel : Nat} {a : Word} {s t : State} (ends : stringWalk putsWord fuel a s = some t) :
    PutsLoop a s t := by
  induction fuel generalizing a s with
  | zero => cases ends
  | succ fuel ih =>
    by_cases zero : (memRead a s).1 = 0x0000
    · rw [stringWalk_stops fuel (by rw [zero, putsWord_zero]), State.out_nil] at ends
      cases ends
      exact .done zero
    · rw [stringWalk_goesOn fuel (putsWord_char zero)] at ends
      exact .char zero (ih ends)

theorem putspLoop_of_walk {fuel : Nat} {a : Word} {s t : State} (ends : stringWalk putspWord fuel a s = some t) :
    PutspLoop a s t := by
  induction fuel generalizing a s with
  | zero => cases ends
  | succ fuel ih =>
    by_cases low : lowByte (memRead a s).1 = 0
    · rw [stringWalk_stops fuel (putspWord_lowZero low), State.out_nil] at ends
      cases ends
      exact .lowZero low
    · by_cases high : highByte (memRead a s).1 = 0
      · rw [stringWalk_stops fuel (putspWord_highZero low high)] at ends
        cases ends
        exact .highZero low high
      · rw [stringWalk_goesOn fuel (putspWord_chars low high), ← List.singleton_append, ← State.out_out] at ends
        exact .chars low high (ih ends)

/-- A service's next state is the end of its walk. -/
theorem putString_walk {word : Word → List Byte × Bool} {s t : State} (e : putString word s = .next t) :
    ∃ fuel, stringWalk word fuel (s.getReg 0) s = some t := by
  rw [putString] at e
  split at e
  · rename_i ends
    cases e
    exact ⟨_, ends⟩
  · cases e

/-- A service after the entry: the walk from R0, which changes no register but R7 and no word but the device slots. -/
theorem putString_entry {word : Word → List Byte × Bool} (zeroStops : (word 0x0000).2 = false) (s : State) :
    ∃ t, putString word (trapEntry s) = .next t ∧
      (∃ fuel, stringWalk word fuel (s.getReg 0) (trapEntry s) = some t) ∧ OnlyR7 s t ∧
      (∀ a, a ≠ kbsr → a ≠ kbdr → t.peek a = s.peek a) ∧ t.run = s.run ∧ t.fault = s.fault := by
  obtain ⟨t, answer, serviced⟩ := putString_next zeroStops (trapEntry s)
  have walk := putString_walk answer
  rw [trapEntry_getReg (by decide)] at walk
  exact ⟨t, answer, walk, onlyR7_of_regs serviced.regs serviced.cond serviced.pc serviced.wait, serviced.peek,
    serviced.run, serviced.fault⟩

end Sys2Proof.Machine
end

section
open Sys2Proof Sys2Proof.Machine

/-- Settles O27: the walk ends (log entry 10), and it goes as the loop of R163. -/
theorem putsRunsItsLoopToTheEnd : Obligations.PutsRunsItsLoopToTheEnd := by
  refine ⟨fun _ h => decode_trapWord h (by decide), fun s => ?_⟩
  have ⟨t, next, ⟨_, walk⟩, frame⟩ := putString_entry putsWord_stops s
  exact ⟨t, next, putsLoop_of_walk walk, frame⟩

/-- Settles O32: as PUTS, with the loop of R165. -/
theorem putspRunsItsLoopToTheEnd : Obligations.PutspRunsItsLoopToTheEnd := by
  refine ⟨fun _ h => decode_trapWord h (by decide), fun s => ?_⟩
  have ⟨t, next, ⟨_, walk⟩, frame⟩ := putString_entry putspWord_stops s
  exact ⟨t, next, putspLoop_of_walk walk, frame⟩

/-- Settles O40: every instruction has a next state, and `resume` alone may have none. -/
theorem everyStepCompletesButAWaitForInput : Obligations.EveryStepCompletesButAWaitForInput :=
  ⟨exec_next, fun _ => step_of_running⟩

end

section
/-! PROOFS about what an instruction may change (10_state.md R28, R30, R41; 20_memory.md R56, R61; 60_exceptions.md
R180; 80_host_interface.md R231, R236): what each shared operation changes, then every instruction, field by field, then
every step, and the statements assembled from them. -/
namespace Sys2Proof.Machine
open Claims

/-! ### Writes of a destination, and loads -/

theorem writeDest_getReg {dr q : RegId} (other : q ≠ dr) (v : Word) (s : State) :
    (writeDest dr v s).getReg q = s.getReg q := by
  simp [other]

/-- COND as a write of a destination leaves it holds the flags of the destination's new value (R27, R28). -/
theorem writeDest_flags (dr : RegId) (v : Word) (s : State) :
    (writeDest dr v s).cond = flagsOf ((writeDest dr v s).getReg dr) := by
  obtain ⟨written, flags, -⟩ := writeDest_resultIn dr v s
  rw [flags, written]

section LoadFrom
variable (dr : RegId) (a : Word) (s : State)

@[simp] theorem loadFrom_run : (loadFrom dr a s).run = s.run := memRead_run a s
@[simp] theorem loadFrom_fault : (loadFrom dr a s).fault = s.fault := memRead_fault a s
@[simp] theorem loadFrom_cout : (loadFrom dr a s).cout = s.cout := memRead_cout a s

@[simp] theorem loadFrom_cin : (loadFrom dr a s).cin = (memRead a s).2.cin := rfl
@[simp] theorem loadFrom_peek (b : Word) : (loadFrom dr a s).peek b = (memRead a s).2.peek b := rfl

theorem loadFrom_getReg {q : RegId} (other : q ≠ dr) : (loadFrom dr a s).getReg q = s.getReg q :=
  (writeDest_getReg other _ _).trans (memRead_getReg a s q)

theorem loadFrom_flags : (loadFrom dr a s).cond = flagsOf ((loadFrom dr a s).getReg dr) := writeDest_flags dr _ _

end LoadFrom

theorem Serviced.getReg {s t : State} (h : Serviced s t) (q : RegId) : t.getReg q = s.getReg q := by
  rw [State.getReg, h.regs]
  rfl

/-! ### The read of GETC and IN -/

section AwaitByte
variable (w : Wait) (s : State)

/-- The read changes R0, COND, the console, the fault and the wait at most (R161, R164). -/
theorem awaitByte_frame : (∀ q, q ≠ 0 → (awaitByte w s).getReg q = s.getReg q) ∧ SameMemory s (awaitByte w s) ∧
    (awaitByte w s).run = s.run := by
  rcases awaitByte_cases w s with ⟨c, rest, -, e⟩ | ⟨-, -, e⟩ | ⟨-, -, e⟩ <;> rw [e]
  · rw [w.finish_eq]
    exact ⟨fun _ other => writeDest_getReg other _ _, fun _ => rfl, rfl⟩
  · exact ⟨fun _ _ => rfl, fun _ => rfl, rfl⟩
  · exact ⟨fun _ _ => rfl, fun _ => rfl, rfl⟩

theorem awaitByte_getReg {q : RegId} (other : q ≠ 0) : (awaitByte w s).getReg q = s.getReg q :=
  (awaitByte_frame w s).1 q other

theorem awaitByte_peek (a : Word) : (awaitByte w s).peek a = s.peek a := (awaitByte_frame w s).2.1 a

@[simp] theorem awaitByte_run : (awaitByte w s).run = s.run := (awaitByte_frame w s).2.2

/-- A byte is echoed by IN alone; without one nothing is written. -/
theorem awaitByte_cout : ∃ written, (awaitByte w s).cout = s.cout ++ written ∧ (w = .getc → written = []) := by
  rcases awaitByte_cases w s with ⟨c, rest, -, e⟩ | ⟨-, -, e⟩ | ⟨-, -, e⟩ <;> rw [e]
  · refine ⟨w.echo c, by rw [w.finish_eq]; rfl, ?_⟩
    rintro rfl
    rfl
  · exact ⟨[], (List.append_nil _).symm, fun _ => rfl⟩
  · exact ⟨[], (List.append_nil _).symm, fun _ => rfl⟩

/-- The byte comes from the front of the input. -/
theorem awaitByte_cin :
    (∃ taken, s.cin.bytes = taken ++ (awaitByte w s).cin.bytes) ∧ (awaitByte w s).cin.closes = s.cin.closes := by
  rcases awaitByte_cases w s with ⟨c, rest, pending, e⟩ | ⟨-, -, e⟩ | ⟨-, -, e⟩ <;> rw [e]
  · rw [w.finish_eq]
    exact ⟨⟨[c], pending⟩, rfl⟩
  · exact ⟨⟨[], rfl⟩, rfl⟩
  · exact ⟨⟨[], rfl⟩, rfl⟩

/-- The fault of R183, by the input alone. -/
theorem awaitByte_fault (ir : Word) (noFault : s.fault = none) :
    (awaitByte w s).fault = faultRaised w.instr ir s.cin := by
  have raised : faultRaised w.instr ir s.cin =
      if s.cin.bytes = [] ∧ s.cin.closes = true then some .consoleInputClosed else none := by cases w <;> rfl
  rw [raised]
  rcases awaitByte_cases w s with ⟨c, rest, pending, e⟩ | ⟨empty, closed, e⟩ | ⟨-, isOpen, e⟩ <;> rw [e]
  · rw [w.finish_eq, if_neg (by simp [pending])]
    exact noFault
  · rw [if_pos ⟨empty, closed⟩, raise_fault]
  · rw [if_neg (by simp [isOpen])]
    exact noFault

/-- COND holds the flags of R0, or the instruction has not come to them: a fault, or a wait (R28, R183, R233). -/
theorem awaitByte_cond :
    (awaitByte w s).cond = flagsOf ((awaitByte w s).getReg 0) ∨
    ((awaitByte w s).cond = s.cond ∧ s.cin.bytes = [] ∧
      if s.cin.closes then (awaitByte w s).fault = some .consoleInputClosed else (awaitByte w s).wait ≠ none) := by
  rcases awaitByte_cases w s with ⟨c, rest, -, e⟩ | ⟨empty, closed, e⟩ | ⟨empty, isOpen, e⟩ <;> rw [e]
  · rw [w.finish_eq]
    exact .inl (writeDest_flags 0 _ _)
  · exact .inr ⟨rfl, empty, by simp [closed]⟩
  · exact .inr ⟨rfl, empty, by simp [isOpen]⟩

end AwaitByte

/-! ### The reads of an instruction (R61) -/

/-- The state after reads at the given addresses, in order. -/
def readAll (reads : List Word) (s : State) : State := reads.foldl (fun t a => (memRead a t).2) s

@[simp] theorem readAll_nil (s : State) : readAll [] s = s := rfl

@[simp] theorem readAll_cons (a : Word) (reads : List Word) (s : State) :
    readAll (a :: reads) s = readAll reads (memRead a s).2 := rfl

theorem readAll_serviced (reads : List Word) (s : State) : Serviced s (readAll reads s) := by
  induction reads generalizing s with
  | nil => exact .refl s
  | cons a rest ih => exact (Serviced.memRead a s).trans (ih _)

/-- Reads clear of KBSR change nothing (R53). -/
theorem readAll_pure {reads : List Word} (clear : kbsr ∉ reads) (s : State) : readAll reads s = s := by
  induction reads with
  | nil => rfl
  | cons a rest ih =>
    rw [List.mem_cons, not_or] at clear
    obtain ⟨here, later⟩ := clear
    rw [readAll_cons, memRead_pure (Ne.symm here)]
    exact ih later

theorem putString_serviced {word : Word → List Byte × Bool} (stops : (word 0x0000).2 = false) {s t : State}
    (e : putString word s = .next t) : Serviced s t := by
  obtain ⟨u, next, serviced⟩ := putString_next stops s
  cases next.symm.trans e
  exact serviced

/-- The two instructions whose reads no list gives. -/
theorem string_of_dataReads {i : Instr} {s : State} (h : dataReads i s = none) : i = .trapPuts ∨ i = .trapPutsp := by
  cases i with
  | trapPuts => exact .inl rfl
  | trapPutsp => exact .inr rfl
  | _ => cases h

/-! ### Every instruction -/

/-! The next state of BR, which writes PC alone; of LDI, which reads its pointer and then loads; and of STI, which reads
its pointer and then stores. -/

theorem exec_br_next {n z p : Bool} {off9 : BitVec 9} {s t : State} (e : exec (.br n z p off9) s = .next t) :
    t = s.setPc (if branchTaken n z p s.cond then plus s.pc off9 else s.pc) :=
  (Host.Outcome.next.inj ((exec_br n z p off9 s).symm.trans e)).symm

theorem exec_ldi_next {dr : RegId} {off9 : BitVec 9} {s t : State} (e : exec (.ldi dr off9) s = .next t) :
    t = loadFrom dr (memRead (pcRelative off9 s) s).1 (memRead (pcRelative off9 s) s).2 :=
  (Host.Outcome.next.inj e).symm

theorem exec_sti_next {sr : RegId} {off9 : BitVec 9} {s t : State} (e : exec (.sti sr off9) s = .next t) :
    t = memWrite (memRead (pcRelative off9 s) s).1 (s.getReg sr) (memRead (pcRelative off9 s) s).2 :=
  (Host.Outcome.next.inj ((exec_sti sr rfl).symm.trans e)).symm

section Exec
variable {i : Instr} {s t : State} (e : exec i s = .next t)
include e

theorem exec_string (isString : i = .trapPuts ∨ i = .trapPutsp) : Serviced (trapEntry s) t := by
  rcases isString with rfl | rfl
  · exact putString_serviced putsWord_stops e
  · exact putString_serviced putspWord_stops e

/-- R41, by the table of the registers an instruction writes. -/
theorem exec_getReg {r : RegId} (unnamed : r ∉ regsWritten i) : t.getReg r = s.getReg r := by
  cases i with
  | br =>
    obtain rfl := exec_br_next e
    rfl
  | addReg | addImm | andReg | andImm | notReg | lea =>
    cases e
    exact writeDest_getReg (by simpa [regsWritten] using unnamed) _ s
  | ld | ldr =>
    cases e
    exact loadFrom_getReg _ _ _ (by simpa [regsWritten] using unnamed)
  | ldi =>
    obtain rfl := exec_ldi_next e
    exact (loadFrom_getReg _ _ _ (by simpa [regsWritten] using unnamed)).trans (memRead_getReg _ s r)
  | jmp | st | str | rti | res =>
    cases e
    rfl
  | sti =>
    obtain rfl := exec_sti_next e
    exact memRead_getReg _ s r
  | jsr | jsrr | trapOut | trapHalt | trapUnassigned =>
    cases e
    exact trapEntry_getReg (by simpa [regsWritten] using unnamed) s
  | trapPuts | trapPutsp =>
    exact ((exec_string e (by simp)).getReg r).trans (trapEntry_getReg (by simpa [regsWritten] using unnamed) s)
  | trapGetc | trapIn =>
    cases e
    simp only [regsWritten, List.mem_cons, List.not_mem_nil, or_false, not_or] at unnamed
    obtain ⟨not7, not0⟩ := unnamed
    exact (awaitByte_getReg _ _ not0).trans (trapEntry_getReg not7 s)

/-- R28, by the table of the registers that COND is set from. -/
theorem exec_cond :
    match flagSource i with
    | none => t.cond = s.cond
    | some dr => t.cond = flagsOf (t.getReg dr) ∨
        (t.cond = s.cond ∧ (i = .trapGetc ∨ i = .trapIn) ∧ s.cin.bytes = [] ∧
          if s.cin.closes then t.fault = some .consoleInputClosed else t.wait ≠ none) := by
  cases i with
  | br =>
    obtain rfl := exec_br_next e
    rfl
  | addReg | addImm | andReg | andImm | notReg | lea =>
    cases e
    exact .inl (writeDest_flags _ _ s)
  | ld | ldr =>
    cases e
    exact .inl (loadFrom_flags _ _ _)
  | ldi =>
    obtain rfl := exec_ldi_next e
    exact .inl (loadFrom_flags _ _ _)
  | jmp | st | str | rti | res | jsr | jsrr | trapOut | trapHalt | trapUnassigned =>
    cases e
    rfl
  | sti =>
    obtain rfl := exec_sti_next e
    exact memRead_cond _ s
  | trapPuts | trapPutsp => exact (exec_string e (by simp)).cond
  | trapGetc | trapIn =>
    cases e
    refine (awaitByte_cond _ _).imp_right ?_
    rintro ⟨cond, empty, outcome⟩
    exact ⟨cond, by simp, empty, outcome⟩

/-- R30: HALT stops the machine, nothing else touches the Running State. -/
theorem exec_run : t.run = if i = .trapHalt then .halted else s.run := by
  cases i with
  | br =>
    obtain rfl := exec_br_next e
    simp
  | ldi =>
    obtain rfl := exec_ldi_next e
    simp
  | sti =>
    obtain rfl := exec_sti_next e
    simp
  | trapPuts | trapPutsp => simpa using (exec_string e (by simp)).run
  | _ => cases e; simp

/-- The table under R180, on a machine that has recorded no fault. -/
theorem exec_fault (noFault : s.fault = none) : t.fault = faultRaised i (encode i) s.cin := by
  cases i with
  | br =>
    obtain rfl := exec_br_next e
    exact noFault
  | addReg | addImm | andReg | andImm | notReg | lea | jmp | st | str | jsr | jsrr | trapOut | trapHalt =>
    cases e
    exact noFault
  | ld | ldr =>
    cases e
    simpa [faultRaised] using noFault
  | ldi =>
    obtain rfl := exec_ldi_next e
    simpa [faultRaised] using noFault
  | sti =>
    obtain rfl := exec_sti_next e
    simpa [faultRaised] using noFault
  | rti | res =>
    cases e
    rfl
  | trapUnassigned vect =>
    cases e
    exact congrArg (some ∘ FaultRecord.badTrapVector) (fieldVect_formatTRP .trap vect).symm
  | trapPuts | trapPutsp => exact (exec_string e (by simp)).fault.trans noFault
  | trapGetc =>
    cases e
    exact awaitByte_fault .getc (trapEntry s) _ noFault
  | trapIn =>
    cases e
    exact awaitByte_fault .inEcho _ _ noFault

/-- R236, for the instructions that do not write to the output. -/
theorem exec_cout_silent (silent : writesOutput i = false) : t.cout = s.cout := by
  cases i with
  | br =>
    obtain rfl := exec_br_next e
    rfl
  | addReg | addImm | andReg | andImm | notReg | lea | jmp | st | str | jsr | jsrr | rti | res | trapUnassigned =>
    cases e
    rfl
  | ld | ldr =>
    cases e
    simp
  | ldi =>
    obtain rfl := exec_ldi_next e
    simp
  | sti =>
    obtain rfl := exec_sti_next e
    simp
  | trapGetc =>
    cases e
    obtain ⟨written, grown, none⟩ := awaitByte_cout .getc (trapEntry s)
    rw [grown, none rfl, List.append_nil]
    rfl
  | trapOut | trapPuts | trapIn | trapPutsp | trapHalt => cases silent

/-- R234, for every instruction. -/
theorem exec_cout_grows : ∃ written, t.cout = s.cout ++ written := by
  cases i with
  | trapOut | trapHalt =>
    cases e
    exact ⟨_, rfl⟩
  | trapPuts | trapPutsp => exact (exec_string e (by simp)).cout
  | trapIn =>
    cases e
    obtain ⟨written, grown, -⟩ := awaitByte_cout .inEcho ((trapEntry s).out Config.inPrompt)
    exact ⟨Config.inPrompt ++ written, grown.trans (List.append_assoc _ _ _)⟩
  | _ => exact ⟨[], (exec_cout_silent e rfl).trans (List.append_nil _).symm⟩

/-- R56: beyond what its reads leave, an instruction changes memory where it stores. -/
theorem exec_peek {reads : List Word} (isReads : dataReads i s = some reads) {a : Word}
    (notStored : storeAddress i s ≠ some a) : t.peek a = (readAll reads s).peek a := by
  cases i with
  | br =>
    obtain rfl := exec_br_next e
    cases isReads
    rfl
  | ld | ldr =>
    cases e
    obtain rfl := Option.some.inj isReads
    simp
  | ldi =>
    obtain rfl := exec_ldi_next e
    obtain rfl := Option.some.inj isReads
    simp
  | st | str =>
    cases e
    cases isReads
    exact (State.poke_peek _ _ _ _).trans (if_neg fun same => notStored (congrArg some same.symm))
  | sti =>
    obtain rfl := exec_sti_next e
    obtain rfl := Option.some.inj isReads
    exact (State.poke_peek _ _ _ _).trans (if_neg fun same => notStored (congrArg some same.symm))
  | trapPuts | trapPutsp => cases isReads
  | trapGetc | trapIn =>
    cases e
    cases isReads
    exact awaitByte_peek _ _ a
  | _ =>
    cases e
    cases isReads
    rfl

/-- R231: beyond what its reads leave, GETC and IN alone change the input. -/
theorem exec_cin {reads : List Word} (isReads : dataReads i s = some reads) (notGetc : i ≠ .trapGetc)
    (notIn : i ≠ .trapIn) : t.cin = (readAll reads s).cin := by
  cases i with
  | br =>
    obtain rfl := exec_br_next e
    cases isReads
    rfl
  | ld | ldr =>
    cases e
    obtain rfl := Option.some.inj isReads
    simp
  | ldi =>
    obtain rfl := exec_ldi_next e
    obtain rfl := Option.some.inj isReads
    simp
  | sti =>
    obtain rfl := exec_sti_next e
    obtain rfl := Option.some.inj isReads
    simp
  | trapPuts | trapPutsp => cases isReads
  | trapGetc => exact absurd rfl notGetc
  | trapIn => exact absurd rfl notIn
  | _ =>
    cases e
    cases isReads
    rfl

/-- R231: the input goes from the front, and how it ends stays. -/
theorem exec_cin_consumed : (∃ taken, s.cin.bytes = taken ++ t.cin.bytes) ∧ t.cin.closes = s.cin.closes := by
  cases reads : dataReads i s with
  | none =>
    have serviced := exec_string e (string_of_dataReads reads)
    exact ⟨serviced.cin, serviced.closes⟩
  | some as =>
    by_cases isWait : i = .trapGetc ∨ i = .trapIn
    · obtain ⟨w, rfl⟩ := Wait.instr_of isWait
      cases (exec_wait w s).symm.trans e
      simpa using awaitByte_cin w (w.prepare s)
    · have serviced := readAll_serviced as s
      rw [exec_cin e reads (isWait ∘ .inl) (isWait ∘ .inr)]
      exact ⟨serviced.cin, serviced.closes⟩

/-- R56: outside the device slots memory changes where the instruction stores alone. -/
theorem exec_peek_outside {a : Word} (notStored : storeAddress i s ≠ some a) (notKbsr : a ≠ kbsr) (notKbdr : a ≠ kbdr) :
    t.peek a = s.peek a := by
  cases reads : dataReads i s with
  | none => exact (exec_string e (string_of_dataReads reads)).peek a notKbsr notKbdr
  | some as => exact (exec_peek e reads notStored).trans ((readAll_serviced as s).peek a notKbsr notKbdr)

end Exec

/-! ### Every step -/

/-- The fault a word's instruction raises names the word, whatever bits the encoder would write in the unused ones. -/
theorem faultRaised_encode_decode (w : Word) (cin : ConsoleIn) :
    faultRaised (decode w) (encode (decode w)) cin = faultRaised (decode w) w cin := by
  cases i : decode w with
  | rti low =>
    have isRti := (decode_eq_rti_iff w).mp ⟨low, i⟩
    rw [← i, decode_rti isRti, encode_rti_fieldLow isRti]
  | res low =>
    have isRes := (decode_eq_res_iff w).mp ⟨low, i⟩
    rw [← i, decode_res isRes, encode_res_fieldLow isRes]
  | trapUnassigned vect =>
    obtain ⟨-, rfl, -⟩ := (decode_unassigned_iff w vect).mp i
    exact congrArg (some ∘ FaultRecord.badTrapVector) (fieldVect_formatTRP .trap (fieldVect w))
  | _ => rfl

theorem Wait.instr_ne_halt (w : Wait) : w.instr ≠ .trapHalt := by
  cases w <;> exact nofun

section Step
variable {s t : State} (e : step s = .next t)
include e

theorem step_run : t.run = .halted ↔ s.current = .trapHalt := by
  rcases step_next e with ⟨⟨running, -, -⟩, dispatched⟩ | ⟨w, held, goesOn⟩
  · rw [exec_run dispatched, fetch_run, running]
    simp
  · rw [resume_next goesOn, awaitByte_run, State.current_of_held held, State.setWait_run, held.1]
    simp [w.instr_ne_halt]

theorem step_fault : t.fault = faultRaised s.current (fetch s).1 s.entered.cin := by
  rcases step_next e with ⟨can, dispatched⟩ | ⟨w, held, goesOn⟩
  · rw [exec_fault dispatched (by simp [can.2.1]), State.current_of_canStep can, State.entered_of_canStep can,
      faultRaised_encode_decode]
  · rw [resume_next goesOn, State.current_of_held held, State.entered_of_held held]
    exact awaitByte_fault w (s.setWait none) _ held.2.1

theorem step_cout_grows : ∃ written, t.cout = s.cout ++ written := by
  rcases step_next e with ⟨-, dispatched⟩ | ⟨w, -, goesOn⟩
  · simpa using exec_cout_grows dispatched
  · rw [resume_next goesOn]
    exact (awaitByte_cout w (s.setWait none)).imp fun _ h => h.1

theorem step_cout_silent (silent : writesOutput s.current = false) : t.cout = s.cout := by
  rcases step_next e with ⟨-, dispatched⟩ | ⟨w, held, goesOn⟩
  · simpa using exec_cout_silent dispatched silent
  · rw [State.current_of_held held] at silent
    obtain ⟨written, grown, none⟩ := awaitByte_cout w (s.setWait none)
    cases w with
    | getc => rw [resume_next goesOn, grown, none rfl, List.append_nil, State.setWait_cout]
    | inEcho => cases silent

end Step

/-! ### Instructions that do not read COND (R28) -/

section SetCond
variable (c : Word)

theorem trapEntry_setCond (s : State) : trapEntry (s.setCond c) = (trapEntry s).setCond c := rfl

theorem kbdPoll_setCond (arrived : Bool) (s : State) :
    kbdPoll arrived (s.setCond c) = (kbdPoll arrived s).setCond c := by
  unfold kbdPoll
  dsimp only [State.setCond_cin]
  split <;> rfl

theorem memRead_setCond (a : Word) (s : State) :
    memRead a (s.setCond c) = ((memRead a s).1, (memRead a s).2.setCond c) := by
  by_cases atKbsr : a = kbsr
  · subst atKbsr
    rw [memRead_kbsr, memRead_kbsr, State.setCond_polls, kbdPoll_setCond]
    rfl
  · rw [memRead_pure atKbsr, memRead_pure atKbsr]
    rfl

theorem loadFrom_setCond (dr : RegId) (a : Word) (s : State) : loadFrom dr a (s.setCond c) = loadFrom dr a s := by
  rw [loadFrom, memRead_setCond]
  rfl

theorem exec_ldi_setCond (dr : RegId) (off9 : BitVec 9) (s : State) :
    exec (.ldi dr off9) (s.setCond c) = exec (.ldi dr off9) s := by
  rw [exec_ldi dr (memRead_setCond c _ s), loadFrom_setCond, exec_ldi dr rfl]
  rfl

theorem stringWalk_setCond (word : Word → List Byte × Bool) (fuel : Nat) (a : Word) (s : State) :
    stringWalk word fuel a (s.setCond c) = (stringWalk word fuel a s).map (·.setCond c) := by
  induction fuel generalizing a s with
  | zero => rfl
  | succ fuel ih =>
    rw [stringWalk, stringWalk, memRead_setCond]
    dsimp only
    split
    · exact ih (a + 1) ((memRead a s).2.out (word (memRead a s).1).1)
    · rfl

theorem putString_setCond {word : Word → List Byte × Bool} {s t : State} (e : putString word s = .next t) :
    putString word (s.setCond c) = .next (t.setCond c) := by
  have bound : walkBound (s.setCond c) = walkBound s := rfl
  rw [putString] at e ⊢
  rw [bound, State.setCond_getReg, stringWalk_setCond]
  split at e
  · rename_i ends
    cases e
    rw [ends]
    rfl
  · cases e

/-- With a byte COND is overwritten; without one it stays. -/
theorem awaitByte_setCond (w : Wait) (s : State) : ∃ d, awaitByte w (s.setCond c) = (awaitByte w s).setCond d := by
  rcases awaitByte_cases w s with ⟨b, rest, pending, e⟩ | ⟨empty, closed, e⟩ | ⟨empty, isOpen, e⟩
  · refine ⟨condOf (zext16 b), ?_⟩
    rw [e, awaitByte_byte w (s := s.setCond c) pending, w.finish_eq, w.finish_eq]
    rfl
  · refine ⟨c, ?_⟩
    rw [e, awaitByte_closed w (s := s.setCond c) empty closed]
    rfl
  · refine ⟨c, ?_⟩
    rw [e, awaitByte_waits w (s := s.setCond c) empty isOpen]
    rfl

/-- An instruction that is no BR goes the same way whatever COND holds. -/
theorem exec_setCond {i : Instr} {s t : State} (notBr : ∀ n z p off9, i ≠ .br n z p off9) (e : exec i s = .next t) :
    ∃ d, exec i (s.setCond c) = .next (t.setCond d) := by
  cases i with
  | br n z p off9 => exact absurd rfl (notBr n z p off9)
  | ld | ldr => exact ⟨t.cond, (congrArg Host.Outcome.next (loadFrom_setCond c _ _ s)).trans e⟩
  | ldi dr off9 => exact ⟨t.cond, (exec_ldi_setCond c dr off9 s).trans e⟩
  | sti sr off9 =>
    cases (exec_sti sr rfl).symm.trans e
    exact ⟨c, exec_sti sr (s := s.setCond c) (memRead_setCond c _ s)⟩
  | trapPuts =>
    rw [exec_trapPuts] at e ⊢
    rw [trapEntry_setCond]
    exact ⟨c, putString_setCond c e⟩
  | trapPutsp =>
    rw [exec_trapPutsp] at e ⊢
    rw [trapEntry_setCond]
    exact ⟨c, putString_setCond c e⟩
  | trapGetc =>
    cases e
    exact (awaitByte_setCond c .getc (trapEntry s)).imp fun _ h => congrArg Host.Outcome.next h
  | trapIn =>
    cases e
    exact (awaitByte_setCond c .inEcho ((trapEntry s).out Config.inPrompt)).imp fun _ h => congrArg Host.Outcome.next h
  | addReg | addImm | andReg | andImm | notReg | lea =>
    cases e
    exact ⟨_, rfl⟩
  | _ =>
    cases e
    exact ⟨c, rfl⟩

end SetCond

end Sys2Proof.Machine
end

section
open Sys2Proof Sys2Proof.Machine

/-- Settles O41: the register rule of `setReg`, and the table of R41 instruction by instruction. -/
theorem registersChangeOnlyWhereTheRuleNames : Obligations.RegistersChangeOnlyWhereTheRuleNames :=
  ⟨fun s r v => (s.setReg_getReg r v r).trans (if_pos rfl), fun _ _ _ e _ => exec_getReg e⟩

/-- Settles O42: a destination is written with its flags, and without a byte GETC and IN write none. -/
theorem condIsSetFromTheDestinationOnly : Obligations.CondIsSetFromTheDestinationOnly :=
  fun _ _ _ => exec_cond

/-- Settles O43: there is a next state from either (log entries 9, 10), and instruction by instruction the two are the
same but for COND. -/
theorem condIsReadOnlyByBranches : Obligations.CondIsReadOnlyByBranches := by
  intro i s c notBr
  obtain ⟨t, e⟩ := exec_next i s
  obtain ⟨d, e'⟩ := exec_setCond c notBr e
  exact ⟨t, d, e, e'⟩

/-- Settles O45: the reads may poll the device slots, and clear of KBSR they change nothing. -/
theorem memoryChangesOnlyByStoresAndPolls : Obligations.MemoryChangesOnlyByStoresAndPolls := by
  refine fun i s t e => ⟨fun a => exec_peek_outside e, ?_⟩
  intro reads isReads clear a notStored
  rw [exec_peek e isReads notStored, readAll_pure clear]

/-- Settles O46: HALT alone stops the machine, and no instruction in progress is a HALT. -/
theorem onlyTrapHaltHalts : Obligations.OnlyTrapHaltHalts := fun _ _ => step_run

/-- Settles O47: the fault follows from the instruction, the word that it was decoded from and the input. -/
theorem faultsAreExactlyTheTableOfCauses : Obligations.FaultsAreExactlyTheTableOfCauses := fun _ _ => step_fault

/-- Settles O48: a step writes what its instruction writes, and the rest of an IN in progress its echo. -/
theorem outputLogOnlyGrows : Obligations.OutputLogOnlyGrows := fun _ _ e => ⟨step_cout_grows e, step_cout_silent e⟩

/-- Settles O49: what is not consumed by GETC or IN is consumed by the reads, and clear of KBSR they consume nothing. -/
theorem inputIsConsumedInOrder : Obligations.InputIsConsumedInOrder := by
  intro i s t e
  obtain ⟨taken, closes⟩ := exec_cin_consumed e
  refine ⟨taken, closes, ?_⟩
  intro reads isReads clear notGetc notIn
  rw [exec_cin e isReads notGetc notIn, readAll_pure clear]

end

section
/-! PROOFS about the memory interface and the loader (20_memory.md R53, R57, R64, R67; 70_reset_and_hazards.md R210,
R211, R216; 80_host_interface.md R232, R237) and sign extension (00_scope.md R11): memory in canonical form by its
reads, the load of an image, the read of a store, fair polling, the fetch, and the statements assembled from them. -/
namespace Sys2Proof.Machine
open Claims

/-! ### Memory in canonical form -/

/-- An address that reads as something listed is listed with what it reads as. -/
theorem Memory.mem_of_read {m : Memory} {a : Nat} (listed : Memory.read m a ≠ Memory.unlisted) :
    (a, Memory.read m a) ∈ m := by
  induction m with
  | nil => exact absurd rfl listed
  | cons d rest ih =>
    obtain ⟨k, w⟩ := d
    rw [Memory.read_cons] at listed ⊢
    split
    · rename_i here
      exact here ▸ List.mem_cons_self
    · rename_i elsewhere
      rw [if_neg elsewhere] at listed
      exact List.mem_cons_of_mem _ (ih listed)

theorem Memory.read_of_mem {m : Memory} (rising : m.Pairwise (fun c d => c.1 < d.1)) {c : Cell} (h : c ∈ m) :
    Memory.read m c.1 = c.2 := by
  induction m with
  | nil => cases h
  | cons d rest ih =>
    obtain ⟨below, rising⟩ := List.pairwise_cons.mp rising
    rw [Memory.read_cons]
    rcases List.mem_cons.mp h with rfl | h
    · exact if_pos rfl
    · rw [if_neg (Nat.ne_of_lt (below c h)), ih rising h]

/-- The cells of a memory in canonical form are its addresses that read as something listed. -/
theorem Memory.mem_iff_read {m : Memory} (wf : Memory.wf m) (c : Cell) :
    c ∈ m ↔ c.1 < 65536 ∧ c.2 ≠ Memory.unlisted ∧ Memory.read m c.1 = c.2 := by
  obtain ⟨rising, bounds⟩ := (Memory.wf_iff m).mp wf
  constructor
  · intro h
    exact ⟨(bounds c h).1, (bounds c h).2, Memory.read_of_mem rising h⟩
  · rintro ⟨-, listed, value⟩
    rw [← value] at listed
    have member := Memory.mem_of_read listed
    rwa [value] at member

theorem Memory.nodup_of_rising {m : Memory} (rising : m.Pairwise (fun c d => c.1 < d.1)) : m.Nodup :=
  rising.imp fun below same => Nat.ne_of_lt below (congrArg Prod.fst same)

theorem Memory.eq_of_read {m m' : Memory} (wf : Memory.wf m) (wf' : Memory.wf m')
    (alike : ∀ a < 65536, Memory.read m a = Memory.read m' a) : m = m' := by
  have rising := ((Memory.wf_iff m).mp wf).1
  have rising' := ((Memory.wf_iff m').mp wf').1
  have sameCells : m.Perm m' := by
    refine (List.perm_ext_iff_of_nodup (Memory.nodup_of_rising rising) (Memory.nodup_of_rising rising')).mpr ?_
    intro c
    rw [Memory.mem_iff_read wf, Memory.mem_iff_read wf']
    refine and_congr_right fun inside => ?_
    rw [alike c.1 inside]
  exact sameCells.eq_of_pairwise (fun _ _ _ _ below above => absurd above (Nat.lt_asymm below)) rising rising'

/-! ### The load of an image (R211, R237) -/

section Load
variable (a : Nat) (ws : List Word) (m : Memory)

theorem read_loadWords_outside {b : Nat} (outside : b < a ∨ a + ws.length ≤ b) :
    Memory.read (loadWords a ws m) b = Memory.read m b := by
  induction ws generalizing a m with
  | nil => rfl
  | cons w rest ih =>
    rw [List.length_cons] at outside
    rw [loadWords, ih _ _ (by omega), Memory.read_write, if_neg (by omega)]

theorem read_loadWords_inside {k : Nat} (h : k < ws.length) : Memory.read (loadWords a ws m) (a + k) = ws[k] := by
  induction ws generalizing a m k with
  | nil => cases h
  | cons w rest ih =>
    rw [loadWords]
    cases k with
    | zero =>
      refine (read_loadWords_outside (a + 1) rest (Memory.write m a w) (.inl (Nat.lt_add_one a))).trans ?_
      rw [Memory.read_write, if_pos rfl, List.getElem_cons_zero]
    | succ k =>
      rw [List.getElem_cons_succ, ← ih (a + 1) _ (Nat.lt_of_succ_lt_succ h), Nat.add_right_comm, Nat.add_assoc]

theorem loadWords_wf (fits : a + ws.length ≤ 65536) (wf : Memory.wf m) : Memory.wf (loadWords a ws m) := by
  induction ws generalizing a m with
  | nil => exact wf
  | cons w rest ih =>
    rw [List.length_cons] at fits
    exact ih _ _ (by omega) (Memory.wf_write w wf (by omega))

end Load

/-! ### Reads after a store (R57, R64) -/

/-- The status a poll leaves does not depend on memory. -/
theorem kbdPoll_status_eq (arrived : Bool) (s : State) :
    (kbdPoll arrived s).peek kbsr = if arrived ∧ s.cin.bytes ≠ [] then 0x8000 else 0x0000 := by
  rcases kbdPoll_cases arrived s with ⟨c, rest, rfl, pending⟩ | quiet
  · rw [kbdPoll_ready_status pending, if_pos (by simp [pending])]
  · rw [kbdPoll_notReady_status quiet, if_neg]
    rintro ⟨found, pending⟩
    simp [found, pending] at quiet

theorem memRead_memWrite {b : Word} (notKbsr : b ≠ kbsr) (a v : Word) (s : State) :
    (memRead b (memWrite a v s)).1 = if b = a then v else (memRead b s).1 := by
  rw [memRead_pure notKbsr, memRead_pure notKbsr, memWrite_eq, State.poke_peek]

theorem memRead_kbsr_memWrite (a v : Word) (s : State) : (memRead kbsr (memWrite a v s)).1 = (memRead kbsr s).1 := by
  rw [memRead_kbsr, memRead_kbsr]
  dsimp only
  rw [kbdPoll_status_eq, kbdPoll_status_eq]
  rfl

/-! ### Fair polling (R216, R232) -/

/-- Of the answers up to a ready one, one is the first that is ready. -/
theorem exists_first_ready {answers : Nat → Bool} (k : Nat) (ready : answers k = true) :
    ∃ j, answers j = true ∧ ∀ i < j, answers i = false := by
  induction k using Nat.strongRecOn with
  | ind k ih =>
    by_cases earlier : ∃ i, i < k ∧ answers i = true
    · obtain ⟨i, before, ready'⟩ := earlier
      exact ih i before ready'
    · exact ⟨k, ready, fun i before => Bool.eq_false_iff.mpr fun ready' => earlier ⟨i, before, ready'⟩⟩

/-- Polls whose answer is not-ready leave the input. -/
theorem pollTimes_cin {answers : Nat → Bool} {k : Nat} (quiet : ∀ j < k, answers j = false) (s : State) :
    (pollTimes answers k s).cin = s.cin := by
  induction k with
  | zero => rfl
  | succ k ih =>
    rw [pollTimes, kbdPoll_notReady_cin (.inr (quiet k (Nat.lt_succ_self k))),
      ih fun j hj => quiet j (Nat.lt_succ_of_lt hj)]

/-! ### Steps -/

/-- A step that starts an instruction fetches through `memRead` (R111). -/
theorem step_fetches {s : State} (can : s.canStep) :
    step s = exec (decode (memRead s.pc s).1) ((memRead s.pc s).2.setPc (s.pc + 1)) := by
  rw [step_of_canStep can, State.current_of_canStep can, fetch, memRead_pc]

/-- Away from KBSR the word fetched is the content of memory. -/
theorem step_fetches_content {s : State} {a w : Word} (can : s.canStep) (atA : s.pc = a) (notKbsr : a ≠ kbsr)
    (content : s.peek a = w) : step s = exec (decode w) (s.setPc (a + 1)) := by
  rw [step_fetches can, atA, memRead_pure notKbsr, content]

/-- ST with offset 0 stores at the incremented PC (R144). -/
theorem exec_st_zero (sr : RegId) (s : State) : exec (.st sr 0) s = .next (memWrite s.pc (s.getReg sr) s) := by
  have here : pcRelative (0 : BitVec 9) s = s.pc := BitVec.add_zero s.pc
  rw [exec_st, here]

theorem State.boot_canStep (p : BootParams) : (State.boot p).canStep := ⟨rfl, rfl, rfl⟩

theorem State.boot_inv {p : BootParams} (wf : Memory.wf p.memInit) : (State.boot p).Inv where
  oneFlag := .inr (.inl rfl)
  memWf := wf
  oneEnd := nofun
  waitRuns := fun waits => absurd rfl waits

/-! ### Sign extension (R11) -/

theorem sext_toNat {b : Nat} (f : BitVec b) (within : b ≤ 16) :
    (sext f).toNat = if f.getLsbD (b - 1) then f.toNat + (2 ^ 16 - 2 ^ b) else f.toNat := by
  have small : f.toNat < 2 ^ 16 := Nat.lt_of_lt_of_le f.isLt (Nat.pow_le_pow_right Nat.two_pos within)
  rw [sext, BitVec.toNat_signExtend, BitVec.msb_eq_getLsbD_last, BitVec.toNat_setWidth, Nat.mod_eq_of_lt small]
  split <;> rfl

end Sys2Proof.Machine
end

section
open Sys2Proof Sys2Proof.Machine Sys2Proof.Claims

/-- Settles O56: a memory in canonical form lists, in rising order, what its reads tell. -/
theorem memoriesThatReadAlikeAreEqual : Obligations.MemoriesThatReadAlikeAreEqual := fun _ _ => Memory.eq_of_read

/-- Settles O57: word by word, each load writing below all later ones. -/
theorem imageWordsLieAtOriginPlusIndex : Obligations.ImageWordsLieAtOriginPlusIndex := by
  intro im m fits
  exact ⟨fun _ => read_loadWords_inside _ _ m, fun _ => read_loadWords_outside _ _ m,
    loadWords_wf _ _ m (of_decide_eq_true fits)⟩

/-- Settles O58: the first poll whose answer is ready finds the byte, for the polls before it have left the input. -/
theorem fairPollingFindsThePendingByte : Obligations.FairPollingFindsThePendingByte := by
  intro answers s c rest pending fair
  obtain ⟨n, -, someReady⟩ := fair 0
  obtain ⟨k, ready, quiet⟩ := exists_first_ready n someReady
  have still : (pollTimes answers k s).cin.bytes = c :: rest := by rw [pollTimes_cin quiet, pending]
  refine ⟨k, ?_⟩
  rw [pollTimes, ready]
  exact ⟨kbdPoll_ready_status still, kbdPoll_ready_data still, by rw [kbdPoll_ready_cin still]⟩

/-- Settles O52: away from KBSR a read is the content; at KBSR it is the status that the poll leaves, over any word
stored there. -/
theorem loadsSeeTheLastStoreButAtKbsr : Obligations.LoadsSeeTheLastStoreButAtKbsr :=
  fun a v _ s =>
    ⟨rfl, fun notKbsr => memRead_memWrite notKbsr a v s, memRead_kbsr_memWrite a v s, memRead_kbsr_status s⟩

/-- Settles O2: the step of a machine that can step is the fetch and the dispatch. -/
theorem stepRunsTheDecodedInstruction : Obligations.StepRunsTheDecodedInstruction := by
  intro s running noFault noWait
  have can : s.canStep := ⟨running, noFault, noWait⟩
  refine ⟨?_, fun notKbsr => step_fetches_content can rfl notKbsr rfl⟩
  rintro i rfl
  exact step_fetches can

/-- Settles O54: neither fetch polls, and the second reads what the first instruction stored. -/
theorem storeIsSeenByTheNextFetch : Obligations.StoreIsSeenByTheNextFetch := by
  intro s sr running noFault noWait notKbsr nextNotKbsr isSt
  have can : s.canStep := ⟨running, noFault, noWait⟩
  obtain ⟨t, first, can', pc, stored⟩ : ∃ t, step s = .next t ∧ t.canStep ∧ t.pc = s.pc + 1 ∧
      t.peek (s.pc + 1) = s.getReg sr := by
    refine ⟨memWrite (s.pc + 1) (s.getReg sr) (s.setPc (s.pc + 1)), ?_, can, rfl, by simp⟩
    rw [step_fetches_content can rfl notKbsr rfl, isSt]
    exact exec_st_zero sr _
  refine ⟨t, first, pc, stored, ?_⟩
  rw [step_fetches_content can' pc nextNotKbsr stored, BitVec.add_assoc]
  rfl

/-- Settles O39: reset leaves the Z flag alone and a machine that is running, without a fault and not waiting. -/
theorem resetIsWellFormed : Obligations.ResetIsWellFormed :=
  ⟨fun _ => State.boot_inv, State.boot_inv reset_memory_wf, State.boot_canStep⟩

/-- Settles O50: the answer of the poll at KBSR is the draw numbered by the polls made. -/
theorem readsArePureButForKbsr : Obligations.ReadsArePureButForKbsr := by
  intro a s
  refine ⟨fun notKbsr => memRead_pure notKbsr s, ?_⟩
  rintro rfl
  exact ⟨Config.pollArrived s.polls, rfl, rfl⟩

/-- Settles O55: all four widths are below 16. -/
theorem signExtensionKeepsTheSignedReading : Obligations.SignExtensionKeepsTheSignedReading := by
  intro b f width
  have within : b ≤ 16 := by
    simp only [List.mem_cons, List.not_mem_nil, or_false] at width
    omega
  exact ⟨BitVec.toInt_signExtend_of_le within, sext_toNat f within⟩

end
